-- ==== Sys2Proof/Word.lean ====
section
/-! DEFINITION. The word: the one unit of registers, memory cells, addresses and instructions (rules R6, R8, R50). -/

namespace Sys2Proof

/-- A 16-bit unsigned word (rule R8: "A Word is an integer in 0 to 65535"; rule R6: the width of registers, cells, `pc` and `sp`). -/
abbrev Word := BitVec 16

end Sys2Proof
end

