-- ==== Sys2Proof/Config.lean ====
section
/-! DEFINITION. The sizes and constants of the hardware. All of them are fixed by the spec (rule R6); nothing is left to an
implementation inside the instruction semantics (rule R7), and no value is left open, so there is no free value here. -/

namespace Sys2Proof.Config

/-- The number of memory cells (rules R6, R50: "65536 unsigned 16-bit words, index = address"). -/
abbrev memoryWords : Nat := 65536

/-- What a memory cell holds that nothing has written (rule R33: "every memory word 0"; rule R51: "or its reset value 0").
It is the spec's reset value, not a choice. -/
abbrev resetCell : Word := 0

end Sys2Proof.Config
end

