-- ==== Sys2Proof/Syntax/Operand.lean ====
section
/-! DEFINITION. The operand forms: the eight registers (rule R21) and the twelve rows of the value-code map (rule R86). -/

namespace Sys2Proof

/-- The eight general registers A, B, C, X, Y, Z, I, J, in index order 0 to 7 (rule R21). -/
inductive Reg where
  | a | b | c | x | y | z | i | j
deriving DecidableEq, Repr

/-- One operand, as its value code designates it: one constructor for each row of rule R86's table.
The operand words of the forms that consume a next word are not part of the operand: they are read from memory when the
operand is resolved (rule R124). -/
inductive Operand where
  /-- Codes 0 to 7, a register (rule R111). -/
  | reg (r : Reg)
  /-- Codes 8 to 15, the cell a register points at (rule R112). -/
  | regInd (r : Reg)
  /-- Codes 16 to 23, the cell at next word plus register (rule R113). -/
  | nextPlusReg (r : Reg)
  /-- Code 24 (rule R114). -/
  | pop
  /-- Code 25 (rule R115). -/
  | peek
  /-- Code 26 (rule R116). -/
  | push
  /-- Code 27, the stack pointer (rule R117). -/
  | sp
  /-- Code 28, the program counter (rule R118). -/
  | pc
  /-- Code 29, the overflow flag (rule R119). -/
  | o
  /-- Code 30, the cell at the next word (rule R120). -/
  | nextInd
  /-- Code 31, the next word itself (rule R121). -/
  | nextLit
  /-- Codes 32 to 63, the short literal `n = code - 32`, 0 to 31 (rule R122). A larger `n` stands for a code outside
  0 to 63: `WellFormed` refuses it and resolving it raises `UnknownValueCode` (rule R123). -/
  | shortLit (n : Nat)
deriving DecidableEq, Repr

end Sys2Proof
end

