-- ==== Sys2Proof/Syntax.lean ====
section
/-! DEFINITION. The instructions: one constructor for each row of spec/opcode_table.json (rule R84). -/

namespace Sys2Proof

/-- An instruction: operand `a` is the destination, operand `b` the source (rules R80, R84). -/
inductive Instr where
  /-- Opcode 0 (rules R85, R88, R144). `ignored` is bits 15 to 4 of the word, the operand fields that NOP ignores: kept
  so that each of the 4096 words is its own instruction, and read by no meaning. DESIGN CHOICE, safe, log entry 2. -/
  | nop (ignored : BitVec 12)
  /-- Opcode 1 (rule R170). -/
  | set (a b : Operand)
  /-- Opcode 2 (rule R171). -/
  | add (a b : Operand)
  /-- Opcode 3 (rule R172). -/
  | sub (a b : Operand)
  /-- Opcode 4 (rule R173). -/
  | mul (a b : Operand)
  /-- Opcode 5 (rule R174). -/
  | div (a b : Operand)
  /-- Opcode 6 (rule R175). -/
  | mod (a b : Operand)
  /-- Opcode 7 (rule R190). -/
  | shl (a b : Operand)
  /-- Opcode 8 (rule R191). -/
  | shr (a b : Operand)
  /-- Opcode 9 (rule R192). -/
  | and (a b : Operand)
  /-- Opcode 10 (rule R193). -/
  | bor (a b : Operand)
  /-- Opcode 11 (rule R194). -/
  | xor (a b : Operand)
  /-- Opcode 12 (rule R210). -/
  | ife (a b : Operand)
  /-- Opcode 13 (rule R211). -/
  | ifn (a b : Operand)
  /-- Opcode 14 (rule R212). -/
  | ifg (a b : Operand)
  /-- Opcode 15 (rule R213). -/
  | ifb (a b : Operand)
deriving DecidableEq, Repr

/-- The operands of an instruction, the destination first; NOP has none (rule R144: "Operands: none"). -/
def Instr.operands : Instr → Option (Operand × Operand)
  | .nop _ => none
  | .set a b => some (a, b)
  | .add a b => some (a, b)
  | .sub a b => some (a, b)
  | .mul a b => some (a, b)
  | .div a b => some (a, b)
  | .mod a b => some (a, b)
  | .shl a b => some (a, b)
  | .shr a b => some (a, b)
  | .and a b => some (a, b)
  | .bor a b => some (a, b)
  | .xor a b => some (a, b)
  | .ife a b => some (a, b)
  | .ifn a b => some (a, b)
  | .ifg a b => some (a, b)
  | .ifb a b => some (a, b)

end Sys2Proof
end

