-- ==== Sys2Proof/WellFormed.lean ====
section
/-! DEFINITION. Which terms of the syntax are instructions of the hardware: the one check is that a value code fits its 6-bit
field (rules R81, R123). Every combination of value codes is legal with every opcode, a literal destination included (rule R89). -/

namespace Sys2Proof

/-- The operand is one of the 64 value codes: a short literal is 0 to 31 (rule R122), every other form always is one. -/
def Operand.wf : Operand → Bool
  | .shortLit n => n < 32
  | .reg _ => true
  | .regInd _ => true
  | .nextPlusReg _ => true
  | .pop => true
  | .peek => true
  | .push => true
  | .sp => true
  | .pc => true
  | .o => true
  | .nextInd => true
  | .nextLit => true

/-- Both operands are value codes; NOP has no operand to check. -/
def Instr.wf (i : Instr) : Bool :=
  match i.operands with
  | none => true
  | some (a, b) => a.wf && b.wf

end Sys2Proof
end

