-- ==== Sys2Proof/Decode.lean ====
section
/-! DEFINITION. The decoder (rules R80, R81, R84, R86), then the encoder written from the same tables, then the columns of the
opcode table and of the value-code table (rules R82, R84, R86). Fields are cut out here and nowhere else. -/

namespace Sys2Proof

/-! ### The three fields of an instruction word (rule R81) -/

/-- Bits 3 to 0: `op = w mod 16`. -/
def opField (w : Word) : Nat := w.toNat % 16

/-- Bits 9 to 4: `a = floor(w / 16) mod 64`. -/
def aField (w : Word) : Nat := w.toNat / 16 % 64

/-- Bits 15 to 10: `b = floor(w / 1024)`. -/
def bField (w : Word) : Nat := w.toNat / 1024

/-! ### The value-code map (rule R86) -/

/-- The register with index `n mod 8` (rules R21, R86: "i is the register index `code mod 8`"). -/
def regOf (n : Nat) : Reg :=
  match n % 8 with
  | 0 => .a
  | 1 => .b
  | 2 => .c
  | 3 => .x
  | 4 => .y
  | 5 => .z
  | 6 => .i
  | _ => .j

/-- The operand that value code `c` designates (rule R86). Codes above 63 give a short literal above 31, which is no operand of
the hardware (`Operand.wf`) and raises `UnknownValueCode` when it is resolved (rule R123): DEDUCED, safe, log entry 3. -/
def operandOf (c : Nat) : Operand :=
  if c < 8 then .reg (regOf c)
  else if c < 16 then .regInd (regOf c)
  else if c < 24 then .nextPlusReg (regOf c)
  else if c < 32 then
    match c with
    | 24 => .pop
    | 25 => .peek
    | 26 => .push
    | 27 => .sp
    | 28 => .pc
    | 29 => .o
    | 30 => .nextInd
    | _ => .nextLit
  else .shortLit (c - 32)

/-! ### The opcode map (rule R84) -/

/-- The instruction with opcode `op` and value codes `ca`, `cb` (rule R84); an opcode with no row has none (rule R151).
The numbers 1 to 15 are the spec's decision D1: UNVERIFIED, unsafe, log entry 5.
Opcode 0 is NOP whatever its operand bits are (rule R88). -/
def instrOf (op ca cb : Nat) : Option Instr :=
  let a := operandOf ca
  let b := operandOf cb
  match op with
  | 0 => some (.nop (BitVec.ofNat 12 (cb * 64 + ca)))
  | 1 => some (.set a b)
  | 2 => some (.add a b)
  | 3 => some (.sub a b)
  | 4 => some (.mul a b)
  | 5 => some (.div a b)
  | 6 => some (.mod a b)
  | 7 => some (.shl a b)
  | 8 => some (.shr a b)
  | 9 => some (.and a b)
  | 10 => some (.bor a b)
  | 11 => some (.xor a b)
  | 12 => some (.ife a b)
  | 13 => some (.ifn a b)
  | 14 => some (.ifg a b)
  | 15 => some (.ifb a b)
  | _ => none

/-- Why a word is no instruction. -/
inductive DecodeError where
  /-- The opcode field has no row in the opcode table (rules R89, R151). -/
  | unknownOpcode
deriving DecidableEq, Repr

/-- The decoder: the instruction an instruction word stands for (rules R81, R143), or the named rejection. Total on every
word; no word is rejected, since the sixteen opcodes fill the field (rule R89). -/
def decode (w : Word) : Except DecodeError Instr :=
  match instrOf (opField w) (aField w) (bField w) with
  | some i => .ok i
  | none => .error .unknownOpcode

/-- The instruction word in a table word: bits 15 to 0 of the `nbits` low bits of `w`, the first word of the instruction (its
bit 0 is the table's bit 0). Any operand words follow in bits 31 to 16 and 47 to 32 and are no part of the decoding, which
needs the first word only (rule R82: "A decoder tells the length from the first word alone"). -/
def tableWord (nbits w k : Nat) : Word := BitVec.ofNat 16 (w % 2 ^ nbits / 65536 ^ k)

/-- What the decoder reads from an instruction given in the numbering of spec/opcode_table.json. -/
def decodeTableWord (nbits w : Nat) : Option Instr := (decode (tableWord nbits w 0)).toOption

/-! ### The encoder -/

/-- The index of a register (rule R21). -/
def Reg.index : Reg → Nat
  | .a => 0
  | .b => 1
  | .c => 2
  | .x => 3
  | .y => 4
  | .z => 5
  | .i => 6
  | .j => 7

/-- The value code of an operand (rule R86). -/
def Operand.code : Operand → Nat
  | .reg r => r.index
  | .regInd r => 8 + r.index
  | .nextPlusReg r => 16 + r.index
  | .pop => 24
  | .peek => 25
  | .push => 26
  | .sp => 27
  | .pc => 28
  | .o => 29
  | .nextInd => 30
  | .nextLit => 31
  | .shortLit n => 32 + n

/-- The opcode of an instruction (rule R84). -/
def Instr.opcode : Instr → Nat
  | .nop _ => 0
  | .set _ _ => 1
  | .add _ _ => 2
  | .sub _ _ => 3
  | .mul _ _ => 4
  | .div _ _ => 5
  | .mod _ _ => 6
  | .shl _ _ => 7
  | .shr _ _ => 8
  | .and _ _ => 9
  | .bor _ _ => 10
  | .xor _ _ => 11
  | .ife _ _ => 12
  | .ifn _ _ => 13
  | .ifg _ _ => 14
  | .ifb _ _ => 15

/-- The value of operand field a of the instruction word; for NOP, the ignored bits 9 to 4. -/
def Instr.codeA : Instr → Nat
  | .nop ignored => ignored.toNat % 64
  | .set a _ => a.code
  | .add a _ => a.code
  | .sub a _ => a.code
  | .mul a _ => a.code
  | .div a _ => a.code
  | .mod a _ => a.code
  | .shl a _ => a.code
  | .shr a _ => a.code
  | .and a _ => a.code
  | .bor a _ => a.code
  | .xor a _ => a.code
  | .ife a _ => a.code
  | .ifn a _ => a.code
  | .ifg a _ => a.code
  | .ifb a _ => a.code

/-- The value of operand field b of the instruction word; for NOP, the ignored bits 15 to 10. -/
def Instr.codeB : Instr → Nat
  | .nop ignored => ignored.toNat / 64
  | .set _ b => b.code
  | .add _ b => b.code
  | .sub _ b => b.code
  | .mul _ b => b.code
  | .div _ b => b.code
  | .mod _ b => b.code
  | .shl _ b => b.code
  | .shr _ b => b.code
  | .and _ b => b.code
  | .bor _ b => b.code
  | .xor _ b => b.code
  | .ife _ b => b.code
  | .ifn _ b => b.code
  | .ifg _ b => b.code
  | .ifb _ b => b.code

/-- The instruction word of a well-formed instruction: `w = b * 1024 + a * 16 + op` (rule R81). -/
def encode (i : Instr) : Word := BitVec.ofNat 16 (i.codeB * 1024 + i.codeA * 16 + i.opcode)

/-! ### Lengths and table columns -/

/-- `nw(c)`, the number of operand words the operand consumes: 1 for codes 16 to 23, 30 and 31, else 0 (rule R82). -/
def Operand.nextWords : Operand → Nat
  | .nextPlusReg _ => 1
  | .nextInd => 1
  | .nextLit => 1
  | .reg _ => 0
  | .regInd _ => 0
  | .pop => 0
  | .peek => 0
  | .push => 0
  | .sp => 0
  | .pc => 0
  | .o => 0
  | .shortLit _ => 0

/-- The value-code table's column "changes sp": what resolving the operand adds to `sp`, modulo 65536 (rules R27, R86). -/
def Operand.spStep : Operand → Word
  | .pop => 1
  | .push => -1
  | .reg _ => 0
  | .regInd _ => 0
  | .nextPlusReg _ => 0
  | .peek => 0
  | .sp => 0
  | .pc => 0
  | .o => 0
  | .nextInd => 0
  | .nextLit => 0
  | .shortLit _ => 0

/-- The length in words: 1 for NOP, else `1 + nw(a) + nw(b)` (rule R82). -/
def Instr.length (i : Instr) : Nat :=
  match i.operands with
  | none => 1
  | some (a, b) => 1 + a.nextWords + b.nextWords

/-- The words of an instruction in memory order: the instruction word, then a's operand word, then b's (rule R83). `wa` and
`wb` are the operand words; the one of an operand that consumes none is left out. -/
def encodeWords (i : Instr) (wa wb : Word) : List Word :=
  match i.operands with
  | none => [encode i]
  | some (a, b) => encode i :: (List.replicate a.nextWords wa ++ List.replicate b.nextWords wb)

/-- The table's column "writeback": the opcode produces a value for operand a (rule R84). -/
def Instr.writesBack : Instr → Bool
  | .nop _ => false
  | .set _ _ => true
  | .add _ _ => true
  | .sub _ _ => true
  | .mul _ _ => true
  | .div _ _ => true
  | .mod _ _ => true
  | .shl _ _ => true
  | .shr _ _ => true
  | .and _ _ => true
  | .bor _ _ => true
  | .xor _ _ => true
  | .ife _ _ => false
  | .ifn _ _ => false
  | .ifg _ _ => false
  | .ifb _ _ => false

/-- The table's column "writes O": the opcode writes the flag as a side effect (rules R30, R84). -/
def Instr.writesO : Instr → Bool
  | .add _ _ => true
  | .sub _ _ => true
  | .mul _ _ => true
  | .div _ _ => true
  | .shl _ _ => true
  | .shr _ _ => true
  | .nop _ => false
  | .set _ _ => false
  | .mod _ _ => false
  | .and _ _ => false
  | .bor _ _ => false
  | .xor _ _ => false
  | .ife _ _ => false
  | .ifn _ _ => false
  | .ifg _ _ => false
  | .ifb _ _ => false

end Sys2Proof
end

