-- ==== Sys2Proof/Machine/State.lean ====
section
/-! DEFINITION. The complete architectural state (rule R20), its reset value (rules R33, R260), and the reasons a step or a host
operation can stop. -/

namespace Sys2Proof.Machine

/-- One memory cell that is listed: its word address and the word it holds. The cell is a 16-bit word, not a byte: the word is
the unit of addressing (rule R50) and the memory offers no byte view (rule R54). DEDUCED, safe, log entry 1. -/
abbrev Cell := Nat × Word

/-- The memory: the cells that do not hold the reset value 0, in rising order of address (`Memory.wf` in Machine/Ops.lean is
the canonical form). A cell not listed reads as `Config.resetCell`. -/
abbrev Memory := List Cell

/-- The eight general registers (rule R21); named fields, one home for each. -/
structure Regs where
  a : Word
  b : Word
  c : Word
  x : Word
  y : Word
  z : Word
  i : Word
  j : Word
deriving DecidableEq, Repr

/-- The five items of rule R20 and nothing else. -/
structure State where
  /-- 65536 words (rule R50). -/
  mem : Memory
  /-- A, B, C, X, Y, Z, I, J (rule R21). -/
  regs : Regs
  /-- The program counter, a word address (rule R24). -/
  pc : Word
  /-- The stack pointer, a word address (rule R27). -/
  sp : Word
  /-- The overflow flag `O`, one bit (rule R29). -/
  overflow : Bool
deriving DecidableEq, Repr

/-- The state after `new()`: every memory word 0, every register 0, `pc = 0`, `sp = 0`, `overflow = false` (rules R33, R260). -/
def State.reset : State where
  mem := []
  regs := { a := 0, b := 0, c := 0, x := 0, y := 0, z := 0, i := 0, j := 0 }
  pc := 0
  sp := 0
  overflow := false

/-- The complete list of synchronous exceptions (rule R230): symbolic names, no code and no payload. Stopping is safe: nothing
is claimed of what the hardware does after it. -/
inductive Fault where
  /-- Raised by `stepWith` when the decoder finds no row for the opcode, before any operand is resolved (rules R151, R231). No
  instruction word raises it under the spec's opcode numbering (rule R89). Safe. -/
  | unknownOpcode
  /-- Raised by `resolve` for a value code outside 0 to 63 (rules R123, R232). No instruction word raises it; only an
  ill-formed term of the syntax does. The state it would leave is not given (rule R232), and none is made up. Safe. -/
  | unknownValueCode
deriving DecidableEq, Repr

/-- What the model gives no meaning. -/
inductive Refusal where
  /-- Raised by a refused arm of `exec`: that instruction has no meaning yet. No arm is refused in this model. Safe. -/
  | notModelled (mnemonic : String)
  /-- Raised by `hostLoad` for a region that runs past address 65535, to which the spec gives no meaning (rule R263: "a model
  refuses it"). No instruction raises it. Safe. -/
  | loadPastEnd
deriving DecidableEq, Repr

end Sys2Proof.Machine
end

