-- ==== Sys2Proof/Machine/Ops.lean ====
section
/-! DEFINITION. The named operations over memory, registers and `pc`: the only places where state is read or written. -/

namespace Sys2Proof.Machine

/-! ### The memory array (rules R50, R51) -/

/-- The cells are canonical from address `lo` up: addresses strictly rising and below 65536, and no cell that holds what an
unlisted one reads as. -/
def Memory.wfFrom : Nat → Memory → Bool
  | _, [] => true
  | lo, (addr, v) :: m =>
    decide (lo ≤ addr) && decide (addr < Config.memoryWords) && decide (v ≠ Config.resetCell) && Memory.wfFrom (addr + 1) m

/-- The canonical form: equal memories are equal lists. -/
def Memory.wf (m : Memory) : Bool := Memory.wfFrom 0 m

/-- The word at an address: the listed one, else the reset value (rules R33, R51). -/
def Memory.read : Memory → Nat → Word
  | [], _ => Config.resetCell
  | (addr, v) :: m, n => if addr = n then v else Memory.read m n

/-- The memory without any entry for address `n`. -/
def Memory.erase (m : Memory) (n : Nat) : Memory := m.filter fun c => decide (c.1 ≠ n)

/-- An entry put in its place in the order of addresses. -/
def Memory.insert : Memory → Nat → Word → Memory
  | [], n, v => [(n, v)]
  | (addr, w) :: m, n, v => if n < addr then (n, v) :: (addr, w) :: m else (addr, w) :: Memory.insert m n v

/-- The cell at `n` set to `v`; a cell set to the reset value is no longer listed. -/
def Memory.write (m : Memory) (n : Nat) (v : Word) : Memory :=
  if v = Config.resetCell then Memory.erase m n else Memory.insert (Memory.erase m n) n v

/-- `MemRead(addr, 1)` (rules R10, R51). -/
def State.memRead (s : State) (addr : Word) : Word := Memory.read s.mem addr.toNat

/-- `MemWrite(addr, 1, v)` (rules R10, R51). -/
def State.memWrite (s : State) (addr v : Word) : State := { s with mem := Memory.write s.mem addr.toNat v }

/-! ### The general registers (rules R10, R21) -/

/-- The value of a register. -/
def Regs.read (g : Regs) : Reg → Word
  | .a => g.a
  | .b => g.b
  | .c => g.c
  | .x => g.x
  | .y => g.y
  | .z => g.z
  | .i => g.i
  | .j => g.j

/-- A register set to `v`; no register is hardwired or read-only (rule R23). -/
def Regs.write (g : Regs) (r : Reg) (v : Word) : Regs :=
  match r with
  | .a => { g with a := v }
  | .b => { g with b := v }
  | .c => { g with c := v }
  | .x => { g with x := v }
  | .y => { g with y := v }
  | .z => { g with z := v }
  | .i => { g with i := v }
  | .j => { g with j := v }

/-- `x[i]` (rule R10). -/
def State.reg (s : State) (r : Reg) : Word := s.regs.read r

/-- `x[i] <- v` (rule R10). -/
def State.setReg (s : State) (r : Reg) (v : Word) : State := { s with regs := s.regs.write r v }

/-! ### `pc`, `sp`, `O` (rules R10, R25, R27) -/

/-- `pc <- v`. -/
def State.setPc (s : State) (v : Word) : State := { s with pc := v }

/-- `sp <- v`. -/
def State.setSp (s : State) (v : Word) : State := { s with sp := v }

/-- `O <- c`. -/
def State.setOverflow (s : State) (c : Bool) : State := { s with overflow := c }

/-- One advance of `pc`, wrapping modulo 65536 (rule R25). -/
def State.advance (s : State) : State := s.setPc (s.pc + 1)

/-- The fetch: the word at `pc`, `pc` not advanced (rule R142). -/
def State.fetch (s : State) : Word := s.memRead s.pc

/-! ### Words and integers (rule R9) -/

/-- `mask16(x) = x mod 65536`, the non-negative residue (rule R9). -/
def mask16 (x : Int) : Word := BitVec.ofInt 16 x

/-- A Boolean read as a word, 0 or 1 (rule R29). -/
def boolWord (c : Bool) : Word := if c then 1 else 0

/-! ### Raising a fault (rules R230, R235) -/

/-- Taking an exception, all that this hardware does of it: the fault is the result of the step and nothing else happens. There
is no handler address, saved register, mode change or stack use (rule R235), and so no return from it (rule R237). -/
def raise (f : Fault) : Host.Outcome State Fault Refusal := .fault f

/-! ### Words laid out in memory -/

/-- Consecutive words stored from `addr` upward, addresses modulo 65536. -/
def State.storeWords (s : State) (addr : Word) : List Word → State
  | [] => s
  | v :: vs => State.storeWords (s.memWrite addr v) (addr + 1) vs

end Sys2Proof.Machine
end

