-- ==== Sys2Proof/Machine/Operands.lean ====
section
/-! DEFINITION. The addressing-mode resolver: from a value code to a location, and the read and write of a location
(40_operand_resolution.md). -/

namespace Sys2Proof.Machine

/-- A resolved location (rule R11): it lives inside one step and is no state (rule R35). -/
inductive Loc where
  /-- `Reg(i)`, a live reference. -/
  | reg (r : Reg)
  /-- `Mem(addr)`, the address captured at resolution (rule R128). -/
  | mem (addr : Word)
  /-- `PcLoc`, a live reference. -/
  | pc
  /-- `SpLoc`, a live reference. -/
  | sp
  /-- `OLoc`, a live reference. -/
  | o
  /-- `Lit(v)`, the value captured at resolution (rule R128). -/
  | lit (v : Word)
deriving DecidableEq, Repr

/-- `NextWord()`: `pc` advances first, and the word at the new `pc` is read (rule R124). -/
def nextWord (s : State) : Word × State :=
  let s1 := s.advance
  (s1.memRead s1.pc, s1)

/-- `Resolve(c)` (rule R110): the location, and the state after the resolution's own side effect on `pc` or `sp`, which happens
once however the location is then used (the spec's resolution C3: UNVERIFIED, unsafe, log entry 13). -/
def resolve (c : Operand) (s : State) : Except Fault (Loc × State) :=
  match c with
  | .reg r => .ok (.reg r, s)
  | .regInd r => .ok (.mem (s.reg r), s)
  | .nextPlusReg r =>
    let (w, s1) := nextWord s
    .ok (.mem (w + s1.reg r), s1)
  | .pop => .ok (.mem s.sp, s.setSp (s.sp + 1))
  | .peek => .ok (.mem s.sp, s)
  | .push =>
    let s1 := s.setSp (s.sp - 1)
    .ok (.mem s1.sp, s1)
  | .sp => .ok (.sp, s)
  | .pc => .ok (.pc, s)
  | .o => .ok (.o, s)
  | .nextInd =>
    let (w, s1) := nextWord s
    .ok (.mem w, s1)
  | .nextLit =>
    let (w, s1) := nextWord s
    .ok (.lit w, s1)
  | .shortLit n => if n < 32 then .ok (.lit (BitVec.ofNat 16 n), s) else .error .unknownValueCode

/-- Operand a resolved first and completely, then operand b (rules R127, R145): both locations, and the state in which both
values are then read. -/
def resolveBoth (a b : Operand) (s : State) : Except Fault (Loc × Loc × State) :=
  match resolve a s with
  | .error f => .error f
  | .ok (la, s1) =>
    match resolve b s1 with
    | .error f => .error f
    | .ok (lb, s2) => .ok (la, lb, s2)

/-- `ReadLoc(l)` (rule R125). -/
def readLoc (l : Loc) (s : State) : Word :=
  match l with
  | .reg r => s.reg r
  | .mem addr => s.memRead addr
  | .pc => s.pc
  | .sp => s.sp
  | .o => boolWord s.overflow
  | .lit v => v

/-- `WriteLoc(l, v)` (rule R126): a write to a literal does nothing. -/
def writeLoc (l : Loc) (v : Word) (s : State) : State :=
  match l with
  | .reg r => s.setReg r v
  | .mem addr => s.memWrite addr v
  | .pc => s.setPc v
  | .sp => s.setSp v
  | .o => s.setOverflow (decide (v ≠ 0))
  | .lit _ => s

end Sys2Proof.Machine
end

