-- ==== Sys2Proof/Machine/Cycle.lean ====
section
/-! DEFINITION. The instruction cycle around an opcode's own function (rule R141), shared by the opcodes 1 to 15, and the
meaning of NOP (rule R144). -/

namespace Sys2Proof.Machine

/-- What `Exec(op, a, b)` returns (rule R141). -/
structure Effect where
  /-- The exact integer to write back, before masking, or none. -/
  wb : Option Int
  /-- Whether the step makes one extra advance. -/
  skip : Bool
  /-- The Boolean to store in `O`, or none to leave `O` alone. -/
  ovf : Option Bool
deriving DecidableEq, Repr

/-- The flag side effect (rule R147). -/
def updateFlag (ovf : Option Bool) (s : State) : State :=
  match ovf with
  | none => s
  | some c => s.setOverflow c

/-- The masked writeback to operand a's location (rule R147). -/
def writeback (wb : Option Int) (la : Loc) (s : State) : State :=
  match wb with
  | none => s
  | some v => writeLoc la (mask16 v) s

/-- The final advance, always, and one more if the skip condition holds (rules R148, R214). That the skip is one word
whatever follows is the spec's decision D5: UNVERIFIED, unsafe, log entry 8. -/
def finalAdvance (skip : Bool) (s : State) : State :=
  if skip then s.advance.advance else s.advance

/-- Everything after the opcode's own function: the flag first, then the writeback, then the advance (rules R141, R147).
The flag before the writeback is the spec's decision D3: UNVERIFIED, unsafe, log entry 6. -/
def complete (e : Effect) (la : Loc) (s : State) : State :=
  finalAdvance e.skip (writeback e.wb la (updateFlag e.ovf s))

/-- One cycle of an opcode 1 to 15 after decoding: both operands resolved, a first, then both read, then the opcode's function
`f`, then its effect (rules R141, R145, R146). -/
def runCycle (f : Word → Word → Effect) (a b : Operand) (s : State) : Host.Outcome State Fault Refusal :=
  match resolveBoth a b s with
  | .error fault => raise fault
  | .ok (la, lb, s2) => .next (complete (f (readLoc la s2) (readLoc lb s2)) la s2)

/-- NOP: `pc` advances by 1 and nothing else happens; the operand bits have no effect (rule R144). -/
def execNop (_ignored : BitVec 12) (s : State) : Host.Outcome State Fault Refusal := .next s.advance

end Sys2Proof.Machine
end

