-- ==== Sys2Proof/Machine/ConditionalSkip.lean ====
section
/-! DEFINITION. The conditional-skip opcodes IFE, IFN, IFG, IFB (44_conditional_skip.md): no writeback, no flag, and a skip of
one word under the condition of rule R215. -/

namespace Sys2Proof.Machine

/-- IFE skips when `a != b` (rule R210). -/
def ifeSkips (a b : Word) : Bool := decide (a ≠ b)

/-- IFN skips when `a = b` (rule R211). -/
def ifnSkips (a b : Word) : Bool := decide (a = b)

/-- IFG skips when `a <= b`, unsigned (rule R212). -/
def ifgSkips (a b : Word) : Bool := decide (a.toNat ≤ b.toNat)

/-- IFB skips when `(a & b) = 0` (rule R213). -/
def ifbSkips (a b : Word) : Bool := decide (a &&& b = 0)

/-- The result of a conditional: only a skip (rule R214). -/
def skipEffect (skip : Bool) : Effect := { wb := none, skip := skip, ovf := none }

/-- IFE a, b (rule R210). -/
def execIfe (a b : Operand) (s : State) : Host.Outcome State Fault Refusal :=
  runCycle (fun x y => skipEffect (ifeSkips x y)) a b s

/-- IFN a, b (rule R211). -/
def execIfn (a b : Operand) (s : State) : Host.Outcome State Fault Refusal :=
  runCycle (fun x y => skipEffect (ifnSkips x y)) a b s

/-- IFG a, b (rule R212). -/
def execIfg (a b : Operand) (s : State) : Host.Outcome State Fault Refusal :=
  runCycle (fun x y => skipEffect (ifgSkips x y)) a b s

/-- IFB a, b (rule R213). -/
def execIfb (a b : Operand) (s : State) : Host.Outcome State Fault Refusal :=
  runCycle (fun x y => skipEffect (ifbSkips x y)) a b s

end Sys2Proof.Machine
end

