-- ==== Sys2Proof/Machine/Flags.lean ====
section
/-! DEFINITION. The overflow flag each of the six flag-writing opcodes computes (rule R30), over exact integers (rule R9). -/

namespace Sys2Proof.Machine

/-- ADD: `a + b > 65535`, a carry out of bit 15 (rule R171). -/
def addOverflow (a b : Word) : Bool := decide (a.toNat + b.toNat > 65535)

/-- SUB: `a - b < 0`, a borrow (rule R172). -/
def subOverflow (a b : Word) : Bool := decide ((a.toNat : Int) - (b.toNat : Int) < 0)

/-- MUL: `a * b > 65535` (rule R173). -/
def mulOverflow (a b : Word) : Bool := decide (a.toNat * b.toNat > 65535)

/-- DIV: true exactly when `b = 0` (rule R174). -/
def divOverflow (b : Word) : Bool := decide (b.toNat = 0)

/-- The amount by which the shifters shift. The amount is the whole word b, unreduced (rule R195), the spec's
decision D14: UNVERIFIED, unsafe, log entry 9. Shifting by 16 or more
gives the same stored word and flag as shifting by 16 (rule R190: "A model need not form `2^b` for large b"; rule R191: "the
low min(b, 16) bits of a"), so the power of two is formed for at most 16. -/
def shiftAmount (b : Word) : Nat := min b.toNat 16

/-- SHL: `a * 2^b > 65535`, a 1 bit left the 16-bit range (rule R190). -/
def shlOverflow (a b : Word) : Bool := decide (a.toNat * 2 ^ shiftAmount b > 65535)

/-- SHR: `a mod 2^b != 0`, a 1 bit was shifted out below bit 0 (rule R191). For b of 17 or more this is the
spec's resolution C6: UNVERIFIED, unsafe, log entry 10. -/
def shrOverflow (a b : Word) : Bool := decide (a.toNat % 2 ^ shiftAmount b ≠ 0)

end Sys2Proof.Machine
end

