-- ==== Sys2Proof/Machine/SetArithmetic.lean ====
section
/-! DEFINITION. SET and the arithmetic opcodes ADD, SUB, MUL, DIV, MOD (42_set_arithmetic.md): the function `Exec` of each,
exact over the integers (rule R176), and its meaning. -/

namespace Sys2Proof.Machine

/-- `Exec(SET, a, b)` (rule R170). -/
def setEffect (_a b : Word) : Effect := { wb := some b.toNat, skip := false, ovf := none }

/-- `Exec(ADD, a, b)` (rule R171). -/
def addEffect (a b : Word) : Effect :=
  { wb := some (a.toNat + b.toNat : Int), skip := false, ovf := some (addOverflow a b) }

/-- `Exec(SUB, a, b)` (rule R172). -/
def subEffect (a b : Word) : Effect :=
  { wb := some (a.toNat - b.toNat : Int), skip := false, ovf := some (subOverflow a b) }

/-- `Exec(MUL, a, b)` (rule R173). -/
def mulEffect (a b : Word) : Effect :=
  { wb := some (a.toNat * b.toNat : Int), skip := false, ovf := some (mulOverflow a b) }

/-- The quotient DIV stores: the floor, and 0 for a zero divisor (rules R174, R177). -/
def quotient (a b : Word) : Nat := if b.toNat = 0 then 0 else a.toNat / b.toNat

/-- The remainder MOD stores, 0 for a zero divisor (rules R175, R177). -/
def remainder (a b : Word) : Nat := if b.toNat = 0 then 0 else a.toNat % b.toNat

/-- `Exec(DIV, a, b)` (rule R174). -/
def divEffect (a b : Word) : Effect := { wb := some (quotient a b), skip := false, ovf := some (divOverflow b) }

/-- `Exec(MOD, a, b)`, which leaves `O` alone (rule R175), the spec's decision D4: UNVERIFIED, unsafe, log entry 7. -/
def modEffect (a b : Word) : Effect := { wb := some (remainder a b), skip := false, ovf := none }

/-- SET a, b (rule R170). -/
def execSet (a b : Operand) (s : State) : Host.Outcome State Fault Refusal := runCycle setEffect a b s

/-- ADD a, b (rule R171). -/
def execAdd (a b : Operand) (s : State) : Host.Outcome State Fault Refusal := runCycle addEffect a b s

/-- SUB a, b (rule R172). -/
def execSub (a b : Operand) (s : State) : Host.Outcome State Fault Refusal := runCycle subEffect a b s

/-- MUL a, b (rule R173). -/
def execMul (a b : Operand) (s : State) : Host.Outcome State Fault Refusal := runCycle mulEffect a b s

/-- DIV a, b (rule R174). -/
def execDiv (a b : Operand) (s : State) : Host.Outcome State Fault Refusal := runCycle divEffect a b s

/-- MOD a, b (rule R175). -/
def execMod (a b : Operand) (s : State) : Host.Outcome State Fault Refusal := runCycle modEffect a b s

end Sys2Proof.Machine
end

