-- ==== Sys2Proof/Machine/ShiftLogic.lean ====
section
/-! DEFINITION. The shifts SHL, SHR and the logic opcodes AND, BOR, XOR (43_shift_logic.md). -/

namespace Sys2Proof.Machine

/-- `Exec(SHL, a, b)` (rule R190). -/
def shlEffect (a b : Word) : Effect :=
  { wb := some ((a.toNat * 2 ^ shiftAmount b : Nat) : Int), skip := false, ovf := some (shlOverflow a b) }

/-- `Exec(SHR, a, b)` (rule R191). -/
def shrEffect (a b : Word) : Effect :=
  { wb := some ((a.toNat / 2 ^ shiftAmount b : Nat) : Int), skip := false, ovf := some (shrOverflow a b) }

/-- `Exec(AND, a, b)` (rules R192, R196). -/
def andEffect (a b : Word) : Effect := { wb := some (a &&& b).toNat, skip := false, ovf := none }

/-- `Exec(BOR, a, b)` (rules R193, R196). -/
def borEffect (a b : Word) : Effect := { wb := some (a ||| b).toNat, skip := false, ovf := none }

/-- `Exec(XOR, a, b)` (rules R194, R196). -/
def xorEffect (a b : Word) : Effect := { wb := some (a ^^^ b).toNat, skip := false, ovf := none }

/-- SHL a, b (rule R190). -/
def execShl (a b : Operand) (s : State) : Host.Outcome State Fault Refusal := runCycle shlEffect a b s

/-- SHR a, b (rule R191). -/
def execShr (a b : Operand) (s : State) : Host.Outcome State Fault Refusal := runCycle shrEffect a b s

/-- AND a, b (rule R192). -/
def execAnd (a b : Operand) (s : State) : Host.Outcome State Fault Refusal := runCycle andEffect a b s

/-- BOR a, b (rule R193). -/
def execBor (a b : Operand) (s : State) : Host.Outcome State Fault Refusal := runCycle borEffect a b s

/-- XOR a, b (rule R194). -/
def execXor (a b : Operand) (s : State) : Host.Outcome State Fault Refusal := runCycle xorEffect a b s

end Sys2Proof.Machine
end

