-- ==== Sys2Proof/Machine/Step.lean ====
section
/-! DEFINITION. One step (rule R141): fetch, decode, and the meaning of the decoded instruction. -/

namespace Sys2Proof.Machine

/-- The step under a given decoder (rule R141): the word at `pc` is fetched and decoded, and the instruction runs; a word whose
opcode has no row raises `UnknownOpcode` before any operand is resolved (rule R151). The decoder is an argument so that the
spec's case of a model with a partial opcode table (rule R231) can be stated. -/
def stepWith (dec : Word → Except DecodeError Instr) (s : State) : Host.Outcome State Fault Refusal :=
  match dec s.fetch with
  | .ok i => exec i s
  | .error .unknownOpcode => raise .unknownOpcode

/-- `step()`: exactly one instruction cycle (rules R140, R141, R264). -/
def step (s : State) : Host.Outcome State Fault Refusal := stepWith decode s

/-- The state with the instruction of a table word stored where the next step fetches it: three words from `pc` upward, the
longest instruction there is (rule R82); the words above `nbits` are zero. It stands for the host's `load` (rule R262), log
entry 4. -/
def State.withFetchWord (s : State) (nbits w : Nat) : State :=
  s.storeWords s.pc [tableWord nbits w 0, tableWord nbits w 1, tableWord nbits w 2]

end Sys2Proof.Machine
end

