-- ==== Sys2Proof/Machine/HostInterface.lean ====
section
/-! DEFINITION. The host's operations (70_reset_and_hazards.md section 3): `load`, the value `step()` returns to the host, and
the read-only accessors. `new()` is `State.reset`. The host acts between steps only (rule R62), so none of these is part of
`step`. -/

namespace Sys2Proof.Machine

/-- `load(address, words)` (rule R263): `memory[address + k] <- words[k]` and nothing else; a region that runs past address
65535 is refused, the spec's decision D8: UNVERIFIED, safe, log entry 11. -/
def hostLoad (address : Word) (words : List Word) (s : State) : Host.Outcome State Fault Refusal :=
  if address.toNat + words.length ≤ Config.memoryWords then .next (s.storeWords address words)
  else .refused .loadPastEnd

/-- What the host has after a call of `step()`: its result, and the state it then sees (rules R235, R264). What a run does
after a fault is the spec's decision D7: UNVERIFIED, safe, log entry 12. -/
inductive StepReturn where
  /-- `ok`, and the state after the step. -/
  | ok (s : State)
  /-- `UnknownOpcode`, and the state, which is the one before the step (rules R151, R231). -/
  | unknownOpcode (s : State)
  /-- `UnknownValueCode`; the state it leaves is not given (rule R232), and none is made up. -/
  | unknownValueCode
  /-- The model gave the step no meaning; no step of this model ends so. -/
  | refused (r : Refusal)
deriving DecidableEq, Repr

/-- `step()` as the host calls it, under a given decoder. -/
def hostStepWith (dec : Word → Except DecodeError Instr) (s : State) : StepReturn :=
  match stepWith dec s with
  | .next t => .ok t
  | .fault .unknownOpcode => .unknownOpcode s
  | .fault .unknownValueCode => .unknownValueCode
  | .refused r => .refused r

/-- `step()` as the host calls it (rule R264). -/
def hostStep (s : State) : StepReturn := hostStepWith decode s

/-- Accessor: a memory word (rules R38, R265). -/
def readMemory (s : State) (addr : Word) : Word := s.memRead addr

/-- Accessor: a register (rules R38, R265). -/
def readRegister (s : State) (r : Reg) : Word := s.reg r

/-- Accessor: `pc` (rules R38, R265). -/
def readPc (s : State) : Word := s.pc

/-- Accessor: `sp` (rules R38, R265). -/
def readSp (s : State) : Word := s.sp

/-- Accessor: the Boolean flag (rules R38, R265: "The overflow accessor returns the Boolean flag"). -/
def readOverflow (s : State) : Bool := s.overflow

end Sys2Proof.Machine
end

