-- ==== Sys2Proof/Safety.lean ====
section
/-! DEFINITION. What counts as a safe state and a safe run, in the terms claims use. -/

namespace Sys2Proof.Machine

/-- The invariant of the state: its memory is in canonical form. Every other value of the state is in range by its type
(rule R34). -/
def State.wf (s : State) : Bool := Memory.wf s.mem

/-- The outcome is a next state: neither a fault nor a refusal. -/
def isNext : Host.Outcome State Fault Refusal → Bool
  | .next _ => true
  | .fault _ => false
  | .refused _ => false

/-- A run of `n` steps succeeds: no step of it faults or is refused (rules R153, R236: a returned fault ends the run as failed). -/
def runSucceeds (n : Nat) (s : State) : Bool := isNext (Host.Core.run Sys2Proof.core n s)

end Sys2Proof.Machine
end

