-- ==== Sys2Proof/Certificates/Slice0/Reference.lean ====
section
/-! DEFINITION. The spec's own pseudocode (rules R110, R124 to R126, R141) over unbounded integers and total maps, written from
the rules a second time and apart from the model: value codes and opcodes are numbers, memory and registers are functions, no
value is a bit vector. Statements compare the model with it. It is no part of the model, and the model imports nothing of it. -/

namespace Sys2Proof.Reference

/-- The five items of rule R20 as numbers. -/
structure RefState where
  memory : Nat → Nat
  x : Nat → Nat
  pc : Nat
  sp : Nat
  O : Bool

/-- The six forms of rule R11. -/
inductive RefLoc where
  | reg (i : Nat)
  | mem (addr : Nat)
  | pcLoc
  | spLoc
  | oLoc
  | lit (v : Nat)

/-- A step's result (rules R140, R235). -/
inductive RefResult where
  | ok (s : RefState)
  | unknownOpcode
  | unknownValueCode

/-- Rule R9. -/
def mask16 (v : Int) : Nat := (v % 65536).toNat

/-- Rule R124. -/
def nextWord (s : RefState) : Nat × RefState :=
  let pc := (s.pc + 1) % 65536
  (s.memory pc, { s with pc := pc })

/-- Rule R110; `none` raises `UnknownValueCode`. -/
def resolve (c : Nat) (s : RefState) : Option (RefLoc × RefState) :=
  if c ≤ 7 then some (.reg c, s)
  else if c ≤ 15 then some (.mem (s.x (c - 8)), s)
  else if c ≤ 23 then
    let r := nextWord s
    some (.mem ((r.1 + r.2.x (c - 16)) % 65536), r.2)
  else if c = 24 then some (.mem s.sp, { s with sp := (s.sp + 1) % 65536 })
  else if c = 25 then some (.mem s.sp, s)
  else if c = 26 then
    let sp := (((s.sp : Int) - 1) % 65536).toNat
    some (.mem sp, { s with sp := sp })
  else if c = 27 then some (.spLoc, s)
  else if c = 28 then some (.pcLoc, s)
  else if c = 29 then some (.oLoc, s)
  else if c = 30 then
    let r := nextWord s
    some (.mem r.1, r.2)
  else if c = 31 then
    let r := nextWord s
    some (.lit r.1, r.2)
  else if c ≤ 63 then some (.lit (c - 32), s)
  else none

/-- Rule R125. -/
def readLoc (l : RefLoc) (s : RefState) : Nat :=
  match l with
  | .reg i => s.x i
  | .mem addr => s.memory addr
  | .pcLoc => s.pc
  | .spLoc => s.sp
  | .oLoc => if s.O then 1 else 0
  | .lit v => v

/-- Rule R126. -/
def writeLoc (l : RefLoc) (v : Nat) (s : RefState) : RefState :=
  match l with
  | .reg i => { s with x := fun j => if j = i then v else s.x j }
  | .mem addr => { s with memory := fun n => if n = addr then v else s.memory n }
  | .pcLoc => { s with pc := v }
  | .spLoc => { s with sp := v }
  | .oLoc => { s with O := v != 0 }
  | .lit _ => s

/-- `Exec(op, a, b)` for the opcodes 1 to 15: the triple (wb, skip, ovf) of rule R141, by the pseudocode of rules R170 to R175,
R190 to R194 and R210 to R213 word for word; `none` for an opcode with no row. -/
def exec (op a b : Nat) : Option (Option Int × Bool × Option Bool) :=
  match op with
  | 1 => some (some b, false, none)
  | 2 => some (some (a + b), false, some (decide (a + b > 65535)))
  | 3 => some (some ((a : Int) - b), false, some (decide ((a : Int) - b < 0)))
  | 4 => some (some (a * b), false, some (decide (a * b > 65535)))
  | 5 => if b = 0 then some (some 0, false, some true) else some (some ((a / b : Nat) : Int), false, some false)
  | 6 => if b = 0 then some (some 0, false, none) else some (some ((a % b : Nat) : Int), false, none)
  | 7 => some (some ((a * 2 ^ b : Nat) : Int), false, some (decide (a * 2 ^ b > 65535)))
  | 8 => some (some ((a / 2 ^ b : Nat) : Int), false, some (decide (a % 2 ^ b ≠ 0)))
  | 9 => some (some ((a &&& b : Nat) : Int), false, none)
  | 10 => some (some ((a ||| b : Nat) : Int), false, none)
  | 11 => some (some ((a ^^^ b : Nat) : Int), false, none)
  | 12 => some (none, decide (a ≠ b), none)
  | 13 => some (none, decide (a = b), none)
  | 14 => some (none, decide (a ≤ b), none)
  | 15 => some (none, decide (a &&& b = 0), none)
  | _ => none

/-- One advance of `pc` (rule R25). -/
def advance (s : RefState) : RefState := { s with pc := (s.pc + 1) % 65536 }

/-- Rule R141, line by line. -/
def step (s : RefState) : RefResult :=
  let w := s.memory s.pc
  let op := w % 16
  let ca := w / 16 % 64
  let cb := w / 1024
  if op = 0 then .ok (advance s)
  else if op > 15 then .unknownOpcode
  else
    match resolve ca s with
    | none => .unknownValueCode
    | some (la, s1) =>
      match resolve cb s1 with
      | none => .unknownValueCode
      | some (lb, s2) =>
        match exec op (readLoc la s2) (readLoc lb s2) with
        | none => .unknownOpcode
        | some (wb, skip, ovf) =>
          let s3 := match ovf with
            | none => s2
            | some c => { s2 with O := c }
          let s4 := match wb with
            | none => s3
            | some v => writeLoc la (mask16 v) s3
          let s5 := advance s4
          .ok (if skip then advance s5 else s5)

/-- What a state of the model is as a state of the pseudocode. -/
def ofState (s : Machine.State) : RefState where
  memory n := if n < 65536 then (Machine.Memory.read s.mem n).toNat else 0
  x i := if i < 8 then (s.reg (regOf i)).toNat else 0
  pc := s.pc.toNat
  sp := s.sp.toNat
  O := s.overflow

end Sys2Proof.Reference
end

