-- ==== Sys2Proof/Certificates/Slice0/Obligations.lean ====
section
/-! DEFINITION. The statements for the provers. Each docstring names the rule of spec/ it formalises, or the model's log entry or
the spec's own decision it rests on. Where an instruction's outcome is stated, the conclusion is that `exec` ANSWERS that next
state, for all well-formed operands and all states. -/

open Sys2Proof Sys2Proof.Machine

/-! ### Words used by several statements -/

/-- The operand is one of the three forms that name register `r` (rule R22). -/
def Sys2Proof.Operand.namesReg (r : Reg) (c : Operand) : Bool :=
  decide (c = .reg r) || decide (c = .regInd r) || decide (c = .nextPlusReg r)

/-- `nw(c)` as a word. -/
def Sys2Proof.Operand.nw (c : Operand) : Word := BitVec.ofNat 16 c.nextWords

/-! ### Encoding -/

/-- Decode and encode agree on every well-formed instruction, at every value of every operand. Rests on the two maps of rules
R84 and R86, the opcode numbers being the spec's decision D1 (log entry 5). -/
def Obligations.DecodeOfEncodeIsTheInstruction : Prop :=
  ∀ i : Instr, i.wf = true → decode (encode i) = .ok i

/-- The three fields of a word are `w mod 16`, `floor(w / 16) mod 64` and `floor(w / 1024)`, encoding is the inverse,
every word decodes to exactly one triple and every triple is that of exactly one word (rule R81). That every triple is an
instruction rests on the opcode numbering, decision D1 (log entry 5). -/
def Obligations.WordsAndTriplesCorrespond : Prop :=
  (∀ w : Word, ∃ i : Instr, decode w = .ok i ∧ i.wf = true ∧ i.opcode = w.toNat % 16 ∧ i.codeA = w.toNat / 16 % 64 ∧
    i.codeB = w.toNat / 1024 ∧ encode i = w) ∧
  (∀ op a b : Nat, op < 16 → a < 64 → b < 64 →
    ∃ w : Word, w.toNat = b * 1024 + a * 16 + op ∧
      ∀ (w' : Word) (i : Instr), decode w' = .ok i → i.opcode = op → i.codeA = a → i.codeB = b → w' = w)

/-- The opcode map and the value-code map, by number: the word with opcode `op` and value codes `ca`, `cb` decodes to the row's
instruction with the operands of those codes, and the twelve rows of the value-code map (rule R86) give the operand of each of
the 64 codes, the registers in the order of rule R21. The opcode numbers 1 to 15 are the spec's decision D1 (log entry 5). -/
def Obligations.OpcodeMapByNumber : Prop :=
  (∀ (k : Nat) (r : Reg), ([.a, .b, .c, .x, .y, .z, .i, .j] : List Reg)[k]? = some r →
    operandOf k = .reg r ∧ operandOf (8 + k) = .regInd r ∧ operandOf (16 + k) = .nextPlusReg r) ∧
  operandOf 24 = .pop ∧ operandOf 25 = .peek ∧ operandOf 26 = .push ∧ operandOf 27 = .sp ∧ operandOf 28 = .pc ∧
  operandOf 29 = .o ∧ operandOf 30 = .nextInd ∧ operandOf 31 = .nextLit ∧
  (∀ n : Nat, n < 32 → operandOf (32 + n) = .shortLit n) ∧
  ∀ ca cb : Nat, ca < 64 → cb < 64 →
    let word := fun op : Nat => BitVec.ofNat 16 (cb * 1024 + ca * 16 + op)
    let a := operandOf ca
    let b := operandOf cb
    decode (word 0) = .ok (.nop (BitVec.ofNat 12 (cb * 64 + ca))) ∧
    decode (word 1) = .ok (.set a b) ∧ decode (word 2) = .ok (.add a b) ∧ decode (word 3) = .ok (.sub a b) ∧
    decode (word 4) = .ok (.mul a b) ∧ decode (word 5) = .ok (.div a b) ∧ decode (word 6) = .ok (.mod a b) ∧
    decode (word 7) = .ok (.shl a b) ∧ decode (word 8) = .ok (.shr a b) ∧ decode (word 9) = .ok (.and a b) ∧
    decode (word 10) = .ok (.bor a b) ∧ decode (word 11) = .ok (.xor a b) ∧ decode (word 12) = .ok (.ife a b) ∧
    decode (word 13) = .ok (.ifn a b) ∧ decode (word 14) = .ok (.ifg a b) ∧ decode (word 15) = .ok (.ifb a b)

/-- Words written out from the spec's encoding, of every family (rule R91 and the tables of 95_test_vectors.md), each decoded to
the instruction it stands for. A sanity statement; the opcode numbers are the spec's decision D1 (log entry 5). -/
def Obligations.SpecWordsDecode : Prop :=
  decode 0x9401#16 = .ok (.set (.reg .a) (.shortLit 5)) ∧
  decode 0x8402#16 = .ok (.add (.reg .a) (.shortLit 1)) ∧
  decode 0x7DE1#16 = .ok (.set .nextInd .nextLit) ∧
  decode 0x806D#16 = .ok (.ifn (.reg .i) (.shortLit 0)) ∧
  decode 0x6182#16 = .ok (.add .pop .pop) ∧
  decode 0x85C3#16 = .ok (.sub .pc (.shortLit 1)) ∧
  decode 0x5961#16 = .ok (.set (.nextPlusReg .i) (.nextPlusReg .i)) ∧
  decode 0x9028#16 = .ok (.shr (.reg .c) (.shortLit 4)) ∧
  decode 0x1234#16 = .ok (.mul (.shortLit 3) (.reg .y)) ∧
  decode 0xFFF0#16 = .ok (.nop 0xFFF#12)

/-- An encoded instruction with its operand words, stored from `pc` upward, is what the next step runs, and its operand words
stand where its resolution reads them: a's at p + 1, b's at p + 1 + nw(a) (rules R82, R83). -/
def Obligations.EncodedWordsRunInPlace : Prop :=
  ∀ (i : Instr) (wa wb : Word) (s : State), i.wf = true →
    let t := s.storeWords s.pc (encodeWords i wa wb)
    (encodeWords i wa wb).length = i.length ∧ step t = exec i t ∧
    ∀ a b : Operand, i.operands = some (a, b) →
      (a.nextWords = 1 → t.memRead (s.pc + 1) = wa) ∧ (b.nextWords = 1 → t.memRead (s.pc + 1 + a.nw) = wb)

/-! ### Reset and invariants -/

/-- Rule R33: after reset every memory word and every register is 0, `pc = 0`, `sp = 0`, `overflow = false`. -/
def Obligations.ResetStateIsAllZero : Prop :=
  (∀ addr : Word, State.reset.memRead addr = 0) ∧ (∀ r : Reg, State.reset.reg r = 0) ∧
  State.reset.pc = 0 ∧ State.reset.sp = 0 ∧ State.reset.overflow = false

/-- The reset state meets the invariant that every step keeps. -/
def Obligations.ResetMeetsTheInvariant : Prop := State.reset.wf = true

/-- Every step keeps the canonical form of the memory, from every state that has it. -/
def Obligations.StepKeepsMemoryCanonical : Prop :=
  ∀ s t : State, s.wf = true → step s = .next t → t.wf = true

/-- The canonical form is canonical: two states that meet the invariant and agree at every address, in every register, in `pc`,
`sp` and `O` are the same state (rule R20: the five items are the whole state). -/
def Obligations.EqualReadsMeanEqualStates : Prop :=
  ∀ s t : State, s.wf = true → t.wf = true → (∀ addr : Word, s.memRead addr = t.memRead addr) →
    (∀ r : Reg, s.reg r = t.reg r) → s.pc = t.pc → s.sp = t.sp → s.overflow = t.overflow → s = t

/-! ### The step -/

/-- A step runs the instruction that the word at `pc` decodes to, on the state as it is: the fetch changes nothing (rules R141,
R142, R143). -/
def Obligations.StepRunsTheDecodedInstruction : Prop :=
  ∀ (s : State) (i : Instr), decode (s.memRead s.pc) = .ok i → step s = exec i s

/-- A table word placed by `withFetchWord` is what the next step runs (log entry 4). -/
def Obligations.FetchWordRunsNext : Prop :=
  ∀ (s : State) (w : Nat) (i : Instr), decodeTableWord 16 w = some i →
    step (s.withFetchWord 16 w) = exec i (s.withFetchWord 16 w)

/-- The step is total: from every state there is a next state, no fault and no refusal (rule R234, an inference the spec marks
as its own; it rests on the opcode numbering, decision D1, log entry 5). -/
def Obligations.StepAlwaysAnswersNext : Prop := ∀ s : State, ∃ t : State, step s = .next t

/-- A value code outside 0 to 63 raises `UnknownValueCode` when it is resolved (rule R123). An instruction with such an operand,
a term of the model's own that no word encodes (log entry 3), faults under that name. Every other instruction completes, on
every state (rule R234, an inference the spec marks as its own). -/
def Obligations.ExecFaultsExactlyOutsideTheValueCodes : Prop :=
  (∀ (c : Nat) (s : State), 63 < c → resolve (operandOf c) s = .error .unknownValueCode) ∧
  (∀ (i : Instr) (s : State), i.wf = false → exec i s = .fault .unknownValueCode) ∧
  (∀ (i : Instr) (s : State), i.wf = true → ∃ t : State, exec i s = .next t)

/-- An opcode with no row raises `UnknownOpcode`, and the host then sees the state as it was before the step (rules
R151, R231); under the spec's numbering (decision D1, log entry 5) no step of this hardware does. -/
def Obligations.UnknownOpcodeLeavesTheState : Prop :=
  (∀ (dec : Word → Except DecodeError Instr) (s : State), dec (s.memRead s.pc) = .error .unknownOpcode →
    stepWith dec s = .fault .unknownOpcode ∧ hostStepWith dec s = .unknownOpcode s) ∧
  (∀ s : State, ∃ t : State, hostStep s = .ok t)

/-- The headline: from every state the model's step does what the spec's pseudocode of rule R141 does over the integers: the
next state of the model, read as a state of the pseudocode, is the pseudocode's next state. It covers every opcode, every
value code and every state. It rests on the spec's decisions D1, D3, D4, D5 and D14 and its resolutions C3, C4 and C6 where the
pseudocode does (log entries 5 to 10 and 13). -/
def Obligations.StepRefinesTheSpecPseudocode : Prop :=
  ∀ s : State, ∃ t : State, step s = .next t ∧ Reference.step (Reference.ofState s) = .ok (Reference.ofState t)

/-! ### Operand resolution -/

/-- `Resolve` (rule R110, with `NextWord`, rule R124), by value code: the location, and the state after the resolution, which differs from
the one before in `pc` or `sp` only. -/
def Obligations.ResolveByValueCode : Prop :=
  ∀ s : State,
    [regOf 0, regOf 1, regOf 2, regOf 3, regOf 4, regOf 5, regOf 6, regOf 7] = [.a, .b, .c, .x, .y, .z, .i, .j] ∧
    (∀ c : Nat, c ≤ 7 → resolve (operandOf c) s = .ok (.reg (regOf c), s)) ∧
    (∀ c : Nat, 8 ≤ c → c ≤ 15 → resolve (operandOf c) s = .ok (.mem (s.reg (regOf (c - 8))), s)) ∧
    (∀ c : Nat, 16 ≤ c → c ≤ 23 → resolve (operandOf c) s =
      .ok (.mem (s.memRead (s.pc + 1) + s.reg (regOf (c - 16))), { s with pc := s.pc + 1 })) ∧
    resolve (operandOf 24) s = .ok (.mem s.sp, { s with sp := s.sp + 1 }) ∧
    resolve (operandOf 25) s = .ok (.mem s.sp, s) ∧
    resolve (operandOf 26) s = .ok (.mem (s.sp - 1), { s with sp := s.sp - 1 }) ∧
    resolve (operandOf 27) s = .ok (.sp, s) ∧
    resolve (operandOf 28) s = .ok (.pc, s) ∧
    resolve (operandOf 29) s = .ok (.o, s) ∧
    resolve (operandOf 30) s = .ok (.mem (s.memRead (s.pc + 1)), { s with pc := s.pc + 1 }) ∧
    resolve (operandOf 31) s = .ok (.lit (s.memRead (s.pc + 1)), { s with pc := s.pc + 1 }) ∧
    (∀ c : Nat, 32 ≤ c → c ≤ 63 → resolve (operandOf c) s = .ok (.lit (BitVec.ofNat 16 (c - 32)), s)) ∧
    (∀ c : Nat, 63 < c → resolve (operandOf c) s = .error .unknownValueCode)

/-- Rule R127: a is resolved completely before b, both values are read after both resolutions. In three instances where the
order shows: a = SP sees b's POP, b = SP sees a's PUSH, b = POP sees a's POP. -/
def Obligations.OperandAIsResolvedBeforeB : Prop :=
  (∀ (a b : Operand) (s s1 s2 : State) (la lb : Loc), resolve a s = .ok (la, s1) → resolve b s1 = .ok (lb, s2) →
    resolveBoth a b s = .ok (la, lb, s2) ∧
    exec (.set a b) s = .next (writeLoc la (readLoc lb s2) s2).advance) ∧
  (∀ s : State, ∃ t : State, exec (.add .sp .pop) s = .next t ∧ t.sp = s.sp + 1 + s.memRead s.sp) ∧
  (∀ s : State, ∃ t : State, exec (.set .push .sp) s = .next t ∧ t.memRead (s.sp - 1) = s.sp - 1) ∧
  (∀ s : State, ∃ t : State, exec (.set .pop .pop) s = .next t ∧ t.memRead s.sp = s.memRead (s.sp + 1) ∧ t.sp = s.sp + 2)

/-- Rule R83: with the instruction word at p, a's operand word is at p + 1 and b's at p + 1 + nw(a), modulo 65536, whatever the
two operands are. -/
def Obligations.OperandWordsInMemoryOrder : Prop :=
  ∀ (a b : Operand) (s : State), a.wf = true → b.wf = true →
    ∃ (la lb : Loc) (s2 : State), resolveBoth a b s = .ok (la, lb, s2) ∧
      let wa := s.memRead (s.pc + 1)
      let wb := s.memRead (s.pc + 1 + a.nw)
      (a = .nextLit → la = .lit wa) ∧ (a = .nextInd → la = .mem wa) ∧
      (∀ r : Reg, a = .nextPlusReg r → la = .mem (wa + s.reg r)) ∧
      (b = .nextLit → lb = .lit wb) ∧ (b = .nextInd → lb = .mem wb) ∧
      (∀ r : Reg, b = .nextPlusReg r → lb = .mem (wb + s.reg r))

/-- Rule R126 (with the reads of rule R125 and the memory of rule R51): a write to a location is what the next read of it gives,
for `O` as 0 or 1, a write to a literal changes nothing at all, and a write leaves every other location as it was. -/
def Obligations.WriteLocWritesThatLocationOnly : Prop :=
  (∀ (r : Reg) (v : Word) (s : State), readLoc (.reg r) (writeLoc (.reg r) v s) = v) ∧
  (∀ (addr v : Word) (s : State), readLoc (.mem addr) (writeLoc (.mem addr) v s) = v) ∧
  (∀ (v : Word) (s : State), readLoc .pc (writeLoc .pc v s) = v) ∧
  (∀ (v : Word) (s : State), readLoc .sp (writeLoc .sp v s) = v) ∧
  (∀ (v : Word) (s : State), readLoc .o (writeLoc .o v s) = if v = 0 then 0 else 1) ∧
  (∀ (c v : Word) (s : State), writeLoc (.lit c) v s = s) ∧
  (∀ (l l' : Loc) (v : Word) (s : State), l ≠ l' → readLoc l' (writeLoc l v s) = readLoc l' s)

/-! ### What each instruction does

`x` and `y` are the two values read after both resolutions (rule R145). -/

/-- Rule R170: SET stores b's value in a's location, whatever the two operands are, leaves `O` alone but for a destination `O`,
and `pc` advances by one after the operand words. -/
def Obligations.SetStoresB : Prop :=
  ∀ (a b : Operand) (s : State), a.wf = true → b.wf = true →
    ∃ (la lb : Loc) (s2 : State), resolveBoth a b s = .ok (la, lb, s2) ∧
      exec (.set a b) s = .next (writeLoc la (readLoc lb s2) s2).advance

/-- Rule R171: ADD stores `(a + b) mod 65536` and sets `O` exactly when `a + b > 65535`, for every destination but `O` itself,
which `ArithmeticIntoO` covers. -/
def Obligations.AddStoresSumAndCarry : Prop :=
  ∀ (a b : Operand) (s : State), a.wf = true → b.wf = true → a ≠ .o →
    ∃ (la lb : Loc) (s2 : State), resolveBoth a b s = .ok (la, lb, s2) ∧
      let x := (readLoc la s2).toNat
      let y := (readLoc lb s2).toNat
      exec (.add a b) s = .next (writeLoc la (BitVec.ofNat 16 ((x + y) % 65536))
        { s2 with overflow := decide (x + y > 65535) }).advance

/-- Rule R172: SUB stores the non-negative residue of `a - b` and sets `O` exactly on a borrow, for every destination but `O`
itself (`ArithmeticIntoO`). -/
def Obligations.SubStoresDifferenceAndBorrow : Prop :=
  ∀ (a b : Operand) (s : State), a.wf = true → b.wf = true → a ≠ .o →
    ∃ (la lb : Loc) (s2 : State), resolveBoth a b s = .ok (la, lb, s2) ∧
      let x := (readLoc la s2).toNat
      let y := (readLoc lb s2).toNat
      exec (.sub a b) s = .next (writeLoc la (BitVec.ofNat 16 (if x < y then x + 65536 - y else x - y))
        { s2 with overflow := decide (x < y) }).advance

/-- Rule R173: MUL stores the low 16 bits of the product and sets `O` exactly when the product exceeds 65535, for every
destination but `O` itself (`ArithmeticIntoO`). -/
def Obligations.MulStoresLowProduct : Prop :=
  ∀ (a b : Operand) (s : State), a.wf = true → b.wf = true → a ≠ .o →
    ∃ (la lb : Loc) (s2 : State), resolveBoth a b s = .ok (la, lb, s2) ∧
      let x := (readLoc la s2).toNat
      let y := (readLoc lb s2).toNat
      exec (.mul a b) s = .next (writeLoc la (BitVec.ofNat 16 (x * y % 65536))
        { s2 with overflow := decide (x * y > 65535) }).advance

/-- Rule R174: DIV stores the floor of `a / b` and clears `O`; with `b = 0` it stores 0, sets `O` and does not fault. For every
destination but `O` itself (`ArithmeticIntoO`). -/
def Obligations.DivStoresQuotientAndNeverFaults : Prop :=
  ∀ (a b : Operand) (s : State), a.wf = true → b.wf = true → a ≠ .o →
    ∃ (la lb : Loc) (s2 : State), resolveBoth a b s = .ok (la, lb, s2) ∧
      let x := (readLoc la s2).toNat
      let y := (readLoc lb s2).toNat
      (y = 0 → exec (.div a b) s = .next (writeLoc la 0 { s2 with overflow := true }).advance) ∧
      (∀ q r : Nat, x = q * y + r → r < y →
        exec (.div a b) s = .next (writeLoc la (BitVec.ofNat 16 q) { s2 with overflow := false }).advance)

/-- MOD stores the remainder, 0 for `b = 0` without a fault (rules R175, R177), and leaves `O` unchanged but for a destination
`O`. That MOD leaves `O` is the spec's decision D4 (log entry 7). -/
def Obligations.ModStoresRemainderAndKeepsO : Prop :=
  ∀ (a b : Operand) (s : State), a.wf = true → b.wf = true →
    ∃ (la lb : Loc) (s2 : State), resolveBoth a b s = .ok (la, lb, s2) ∧
      let x := (readLoc la s2).toNat
      let y := (readLoc lb s2).toNat
      (y = 0 → exec (.mod a b) s = .next (writeLoc la 0 s2).advance) ∧
      (∀ q r : Nat, x = q * y + r → r < y → exec (.mod a b) s = .next (writeLoc la (BitVec.ofNat 16 r) s2).advance)

/-- SHL stores `(a * 2^b) mod 65536` with the whole word b as the amount and sets `O` exactly when `a * 2^b > 65535` (rule R190);
that b is not reduced is the spec's decision D14 (log entry 9). For every destination but `O` itself (`ArithmeticIntoO`). -/
def Obligations.ShlShiftsByTheWholeWord : Prop :=
  ∀ (a b : Operand) (s : State), a.wf = true → b.wf = true → a ≠ .o →
    ∃ (la lb : Loc) (s2 : State), resolveBoth a b s = .ok (la, lb, s2) ∧
      let x := (readLoc la s2).toNat
      let y := (readLoc lb s2).toNat
      exec (.shl a b) s = .next (writeLoc la (BitVec.ofNat 16 (x * 2 ^ y % 65536))
        { s2 with overflow := decide (x * 2 ^ y > 65535) }).advance

/-- SHR stores `floor(a / 2^b)` and sets `O` exactly when `a mod 2^b != 0` (rule R191); the unreduced amount is the spec's
decision D14 (log entry 9), and the flag for amounts of 17 or more is its resolution C6 (log entry 10). For every destination
but `O` itself (`ArithmeticIntoO`). -/
def Obligations.ShrShiftsByTheWholeWord : Prop :=
  ∀ (a b : Operand) (s : State), a.wf = true → b.wf = true → a ≠ .o →
    ∃ (la lb : Loc) (s2 : State), resolveBoth a b s = .ok (la, lb, s2) ∧
      let x := (readLoc la s2).toNat
      let y := (readLoc lb s2).toNat
      exec (.shr a b) s = .next (writeLoc la (BitVec.ofNat 16 (x / 2 ^ y))
        { s2 with overflow := decide (x % 2 ^ y ≠ 0) }).advance

/-- Rules R192, R193, R194, R196: AND, BOR and XOR store the word whose bit k is the and, the inclusive or, the difference of
the two bits k, and leave `O` unchanged but for a destination `O`. -/
def Obligations.LogicWorksBitByBit : Prop :=
  ∀ (a b : Operand) (s : State), a.wf = true → b.wf = true →
    ∃ (la lb : Loc) (s2 : State), resolveBoth a b s = .ok (la, lb, s2) ∧
      let x := readLoc la s2
      let y := readLoc lb s2
      ∃ p q r : Word,
        exec (.and a b) s = .next (writeLoc la p s2).advance ∧
        exec (.bor a b) s = .next (writeLoc la q s2).advance ∧
        exec (.xor a b) s = .next (writeLoc la r s2).advance ∧
        ∀ k : Nat, k < 16 → (p.getLsbD k = true ↔ x.getLsbD k = true ∧ y.getLsbD k = true) ∧
          (q.getLsbD k = true ↔ x.getLsbD k = true ∨ y.getLsbD k = true) ∧
          (r.getLsbD k = true ↔ x.getLsbD k ≠ y.getLsbD k)

/-- Rules R210 to R213: a conditional resolves both operands, writes nothing, and `pc` advances by one after the operand words,
and by one more when its skip condition holds: IFE `a != b`, IFN `a = b`, IFG `a <= b` unsigned, IFB no common 1 bit. The extra
advance is the "one extra `pc` advance" of rule R210. That it is one word whatever instruction follows, also one of two or three
words, is the spec's decision D5 (rule R214, log entry 8). -/
def Obligations.ConditionalsSkipOnTheirCondition : Prop :=
  ∀ (a b : Operand) (s : State), a.wf = true → b.wf = true →
    ∃ (la lb : Loc) (s2 : State), resolveBoth a b s = .ok (la, lb, s2) ∧ s2.pc = s.pc + a.nw + b.nw ∧
      let x := readLoc la s2
      let y := readLoc lb s2
      let go := { s2 with pc := s2.pc + 1 }
      let skip := { s2 with pc := s2.pc + 2 }
      exec (.ife a b) s = .next (if x = y then go else skip) ∧
      exec (.ifn a b) s = .next (if x = y then skip else go) ∧
      exec (.ifg a b) s = .next (if x.toNat > y.toNat then go else skip) ∧
      exec (.ifb a b) s = .next (if ∃ k : Nat, k < 16 ∧ x.getLsbD k = true ∧ y.getLsbD k = true then go else skip)

/-- Rule R144: NOP advances `pc` by 1 and changes nothing else; a step does so on each of the 4096 words whose low four bits are
0, whatever their operand bits are. -/
def Obligations.NopOnlyAdvancesPc : Prop :=
  (∀ (ignored : BitVec 12) (s : State), exec (.nop ignored) s = .next { s with pc := s.pc + 1 }) ∧
  (∀ s : State, (s.memRead s.pc).toNat % 16 = 0 → step s = .next { s with pc := s.pc + 1 })

/-! ### `O`, `pc` and `sp` as operands -/

/-- An instruction with destination `O` ends with `O` equal to "the masked result is nonzero", whatever its flag side effect, and
writes nothing else (rules R31, R147, R275). That the flag update comes before the writeback is the spec's decision D3 (log
entry 6). -/
def Obligations.ArithmeticIntoO : Prop :=
  ∀ (i : Instr) (b : Operand) (s : State), i.operands = some (.o, b) → i.writesBack = true → b.wf = true →
    ∃ (lb : Loc) (s2 : State) (v : Int) (ovf : Option Bool), resolve b s = .ok (lb, s2) ∧
      Reference.exec i.opcode (if s.overflow then 1 else 0) (readLoc lb s2).toNat = some (some v, false, ovf) ∧
      exec i s = .next { s2 with overflow := decide (v % 65536 ≠ 0), pc := s2.pc + 1 }

/-- Rule R119: `O` reads as 0 or 1, as it stands before the instruction's own flag update; a write stores "nonzero". -/
def Obligations.OReadsZeroOrOneAndStoresNonzero : Prop :=
  (∀ (a : Operand) (s : State), a.wf = true → ∃ (la : Loc) (s2 : State), resolveBoth a .o s = .ok (la, .o, s2) ∧
    readLoc .o s2 = if s.overflow then 1 else 0) ∧
  (∀ (r : Reg) (s : State), exec (.set (.reg r) .o) s = .next (s.setReg r (if s.overflow then 1 else 0)).advance) ∧
  (∀ (b : Operand) (s : State), b.wf = true → ∃ (lb : Loc) (s2 : State), resolve b s = .ok (lb, s2) ∧
    exec (.set .o b) s = .next { s2 with overflow := decide (readLoc lb s2 ≠ 0), pc := s2.pc + 1 })

/-- Rule R118: `PC` as an operand reads the address of the instruction word plus the operand words that both operands have
consumed, never the address of the next instruction; a write assigns it and the final advance adds 1. -/
def Obligations.PcReadsTheLastConsumedWord : Prop :=
  (∀ (a b : Operand) (s : State), a.wf = true → b.wf = true →
    ∃ (la lb : Loc) (s2 : State), resolveBoth a b s = .ok (la, lb, s2) ∧ readLoc .pc s2 = s.pc + a.nw + b.nw ∧
      (b = .pc → exec (.set a b) s = .next (writeLoc la (s.pc + a.nw) s2).advance) ∧
      (a = .pc → exec (.set a b) s = .next { s2 with pc := readLoc lb s2 + 1 }))

/-- Every opcode that writes back to `PC` continues at the masked result plus 1 (rule R149, an inference the spec marks as its
own), so `SUB PC, 1` in one word runs itself again: only `O` can change, to whether `pc` was 0. -/
def Obligations.WritingPcContinuesOnePast : Prop :=
  (∀ (i : Instr) (b : Operand) (s : State), i.operands = some (.pc, b) → i.writesBack = true → b.wf = true →
    ∃ (lb : Loc) (s2 t : State) (v : Int) (ovf : Option Bool), resolve b s = .ok (lb, s2) ∧
      Reference.exec i.opcode s2.pc.toNat (readLoc lb s2).toNat = some (some v, false, ovf) ∧
      exec i s = .next t ∧ t.pc.toNat = (Reference.mask16 v + 1) % 65536) ∧
  (∀ s : State, exec (.sub .pc (.shortLit 1)) s = .next { s with overflow := decide (s.pc = 0) })

/-- The closed form of `pc` (rule R150, an inference the spec marks as its own): without a writeback to `PC`, `pc` ends at
p + nw(a) + nw(b) + 1, and one more for a conditional whose skip condition holds. -/
def Obligations.PcAdvancesByTheLengthAndTheSkip : Prop :=
  ∀ (i : Instr) (a b : Operand) (s : State), i.operands = some (a, b) → i.wf = true → (i.writesBack = true → a ≠ .pc) →
    ∃ (la lb : Loc) (s2 t : State) (wb : Option Int) (skip : Bool) (ovf : Option Bool),
      resolveBoth a b s = .ok (la, lb, s2) ∧
      Reference.exec i.opcode (readLoc la s2).toNat (readLoc lb s2).toNat = some (wb, skip, ovf) ∧
      (skip = true → i.writesBack = false) ∧ exec i s = .next t ∧
      t.pc = s.pc + a.nw + b.nw + 1 + (if skip then 1 else 0)

/-- Rule R27: `sp` is changed only by resolving POP (plus 1) and PUSH (minus 1), modulo 65536, and by a writeback to `SP`, which
then decides its value. -/
def Obligations.SpChangesOnlyByStackFormsAndWrites : Prop :=
  ∀ (i : Instr) (a b : Operand) (s : State), i.operands = some (a, b) → i.wf = true →
    ∃ t : State, exec i s = .next t ∧
      ((i.writesBack = false ∨ a ≠ .sp) → t.sp = s.sp + a.spStep + b.spStep) ∧
      (i.writesBack = true → a = .sp → ∃ (lb : Loc) (s2 : State) (v : Int) (ovf : Option Bool),
        resolve b s = .ok (lb, s2) ∧
        Reference.exec i.opcode (s.sp + b.spStep).toNat (readLoc lb s2).toNat = some (some v, false, ovf) ∧
        t.sp.toNat = Reference.mask16 v)

/-- Stack forms in both operands (rule R129, an inference the spec marks as its own): `SET PUSH, POP` and `SET POP, PUSH` leave
every cell and `sp` as they were, `ADD POP, POP` puts the sum of the two top cells in the lower one, `SET PUSH, PUSH` copies
the second cell down to the first. -/
def Obligations.StackFormsInBothOperands : Prop :=
  ∀ s : State,
    (∃ t : State, exec (.set .push .pop) s = .next t ∧ t.sp = s.sp ∧ ∀ addr : Word, t.memRead addr = s.memRead addr) ∧
    (∃ t : State, exec (.set .pop .push) s = .next t ∧ t.sp = s.sp ∧ ∀ addr : Word, t.memRead addr = s.memRead addr) ∧
    (∃ t : State, exec (.add .pop .pop) s = .next t ∧ t.sp = s.sp + 2 ∧
      t.memRead s.sp = s.memRead s.sp + s.memRead (s.sp + 1) ∧ ∀ addr : Word, addr ≠ s.sp → t.memRead addr = s.memRead addr) ∧
    (∃ t : State, exec (.set .push .push) s = .next t ∧ t.sp = s.sp - 2 ∧
      t.memRead (s.sp - 1) = s.memRead (s.sp - 2) ∧ ∀ addr : Word, addr ≠ s.sp - 1 → t.memRead addr = s.memRead addr)

/-- Pushing a word and popping it into a register returns the word and restores `sp`, from every `sp` (rule R130, an inference
the spec marks as its own, of the source's round trip). The pushed word is any register, short literal or operand word. -/
def Obligations.PushThenPopReturnsTheWord : Prop :=
  ∀ (b : Operand) (r : Reg) (s : State), b.wf = true →
    (b = .nextLit ∨ (∃ q : Reg, b = .reg q) ∨ ∃ n : Nat, b = .shortLit n) →
    ∃ (lb : Loc) (s2 t u : State), resolve b s = .ok (lb, s2) ∧ exec (.set .push b) s = .next t ∧
      t.sp = s.sp - 1 ∧ t.memRead (s.sp - 1) = readLoc lb s ∧
      exec (.set (.reg r) .pop) t = .next u ∧ u.reg r = readLoc lb s ∧ u.sp = s.sp ∧
      u.memRead (s.sp - 1) = readLoc lb s

/-! ### Frames -/

/-- What the six flag-writing opcodes ADD, SUB, MUL, DIV, SHL, SHR leave unchanged: every register but the destination, every
cell but the one that operand a was resolved to, and `sp` but for the stack forms and a destination `SP` (rules R22, R30,
R37, R60). -/
def Obligations.FrameOfFlagWritingOpcodes : Prop :=
  ∀ (i : Instr) (a b : Operand) (s t s2 : State) (la lb : Loc), i.operands = some (a, b) → i.writesO = true →
    resolveBoth a b s = .ok (la, lb, s2) → exec i s = .next t →
    (∀ r : Reg, a ≠ .reg r → t.reg r = s.reg r) ∧
    (∀ addr : Word, la ≠ .mem addr → t.memRead addr = s.memRead addr) ∧
    (a ≠ .sp → t.sp = s.sp + a.spStep + b.spStep)

/-- What SET, MOD, AND, BOR, XOR leave unchanged: every register but the destination, every cell but the one that operand a was
resolved to, `O` but for a destination `O`, and `sp` but for the stack forms and a destination `SP` (rules R22, R30, R37,
R60). For MOD and `O` this is the spec's decision D4 (log entry 7). -/
def Obligations.FrameOfFlagKeepingWriters : Prop :=
  ∀ (i : Instr) (a b : Operand) (s t s2 : State) (la lb : Loc), i.operands = some (a, b) → i.writesBack = true →
    i.writesO = false → resolveBoth a b s = .ok (la, lb, s2) → exec i s = .next t →
    (∀ r : Reg, a ≠ .reg r → t.reg r = s.reg r) ∧
    (∀ addr : Word, la ≠ .mem addr → t.memRead addr = s.memRead addr) ∧
    (a ≠ .o → t.overflow = s.overflow) ∧
    (a ≠ .sp → t.sp = s.sp + a.spStep + b.spStep)

/-- What IFE, IFN, IFG, IFB and NOP leave unchanged: every register, every cell and `O`; `sp` too but for the stack forms of a
conditional's operands (rule R217, an inference the spec marks as its own, and rule R144). -/
def Obligations.FrameOfConditionalsAndNop : Prop :=
  ∀ (i : Instr) (s t : State), i.writesBack = false → exec i s = .next t →
    (∀ r : Reg, t.reg r = s.reg r) ∧ (∀ addr : Word, t.memRead addr = s.memRead addr) ∧ t.overflow = s.overflow ∧
    (i.operands = none → t.sp = s.sp) ∧
    (∀ a b : Operand, i.operands = some (a, b) → t.sp = s.sp + a.spStep + b.spStep)

/-- A step never writes more than one cell (rule R60), whatever the word at `pc` is. -/
def Obligations.StepWritesAtMostOneCell : Prop :=
  ∀ s t : State, step s = .next t → ∀ p q : Word,
    t.memRead p ≠ s.memRead p → t.memRead q ≠ s.memRead q → p = q

/-- A literal as destination: the writeback is dropped, so no register, no cell and no `SP` is written, and the flag side effect
still happens (rules R89, R126, R147, R271). -/
def Obligations.LiteralDestinationOnlySetsTheFlag : Prop :=
  ∀ (i : Instr) (a b : Operand) (s : State), i.operands = some (a, b) → i.wf = true → i.writesBack = true →
    (a = .nextLit ∨ ∃ n : Nat, a = .shortLit n) →
    ∃ (la lb : Loc) (s2 : State) (v : Int) (ovf : Option Bool), resolveBoth a b s = .ok (la, lb, s2) ∧
      Reference.exec i.opcode (readLoc la s2).toNat (readLoc lb s2).toNat = some (some v, false, ovf) ∧
      exec i s = .next { s2 with overflow := ovf.getD s.overflow, pc := s.pc + a.nw + b.nw + 1 } ∧
      (∀ addr : Word, s2.memRead addr = s.memRead addr) ∧ (∀ r : Reg, s2.reg r = s.reg r)

/-- A register that no operand of the instruction names is neither read nor written: changing it before the instruction changes
it after, and nothing else (rules R22, R37). -/
def Obligations.UnnamedRegistersDoNotMatter : Prop :=
  ∀ (i : Instr) (r : Reg) (v : Word) (s t : State),
    (∀ a b : Operand, i.operands = some (a, b) → a.namesReg r = false ∧ b.namesReg r = false) →
    exec i s = .next t → exec i (s.setReg r v) = .next (t.setReg r v)

/-- A store is seen by the very next fetch, with no barrier (rule R65, an inference the spec marks as its own): where the cell
written is the next instruction's, the next step runs what was stored there. -/
def Obligations.StoreIsSeenByTheNextFetch : Prop :=
  ∀ (i j : Instr) (a b : Operand) (s s2 t : State) (lb : Loc) (v : Int) (ovf : Option Bool),
    i.operands = some (a, b) → resolveBoth a b s = .ok (.mem t.pc, lb, s2) →
    Reference.exec i.opcode (s2.memRead t.pc).toNat (readLoc lb s2).toNat = some (some v, false, ovf) →
    decode (BitVec.ofNat 16 (Reference.mask16 v)) = .ok j → exec i s = .next t → step t = exec j t

/-! ### The host -/

/-- `load` within the memory writes the words from the address upward and changes nothing else (rule R263); a load that runs past
address 65535 is refused, by the spec's decision D8 (log entry 11). -/
def Obligations.LoadWritesItsRegionOrIsRefused : Prop :=
  ∀ (address : Word) (words : List Word) (s : State),
    (address.toNat + words.length ≤ 65536 → ∃ t : State, hostLoad address words s = .next t ∧
      (∀ (k : Nat) (w : Word), words[k]? = some w → t.memRead (BitVec.ofNat 16 (address.toNat + k)) = w) ∧
      (∀ addr : Word, addr.toNat < address.toNat ∨ address.toNat + words.length ≤ addr.toNat →
        t.memRead addr = s.memRead addr) ∧
      t.regs = s.regs ∧ t.pc = s.pc ∧ t.sp = s.sp ∧ t.overflow = s.overflow) ∧
    (65536 < address.toNat + words.length → hostLoad address words s = .refused .loadPastEnd)

/-- With nothing loaded every step from reset is a NOP: after n steps `pc` is n modulo 65536 and all else is as at reset (rule
R261, an inference the spec marks as its own). -/
def Obligations.EmptyMemoryRunsNops : Prop :=
  ∀ n : Nat, Host.Core.run Sys2Proof.core n State.reset = .next (State.reset.setPc (BitVec.ofNat 16 n))
end

