-- ==== Sys2Proof/Laws/State.lean ====
section
/-! SUPPORT. One lemma for each field and each update of the state, and the register file's read after write. -/

namespace Sys2Proof.Machine

/-! ### Registers -/

@[simp] theorem Regs.read_write_same (g : Regs) (r : Reg) (v : Word) : (g.write r v).read r = v := by
  cases r <;> rfl

theorem Regs.read_write_other (g : Regs) (r q : Reg) (v : Word) (h : r ≠ q) : (g.write r v).read q = g.read q := by
  cases r <;> cases q <;> first | rfl | exact absurd rfl h

theorem Regs.read_write (g : Regs) (r q : Reg) (v : Word) :
    (g.write r v).read q = if r = q then v else g.read q := by
  split
  · next h => subst h; simp
  · next h => exact Regs.read_write_other g r q v h

/-- Writes to two different registers commute. -/
theorem Regs.write_comm (g : Regs) (r q : Reg) (v w : Word) (h : r ≠ q) :
    (g.write r v).write q w = (g.write q w).write r v := by
  cases r <;> cases q <;> first | rfl | exact absurd rfl h

/-- Two register files that read the same are the same. -/
theorem Regs.eq_of_read (g h : Regs) (e : ∀ r : Reg, g.read r = h.read r) : g = h := by
  obtain ⟨_, _, _, _, _, _, _, _⟩ := g
  obtain ⟨_, _, _, _, _, _, _, _⟩ := h
  have ea := e .a; have eb := e .b; have ec := e .c; have ex := e .x
  have ey := e .y; have ez := e .z; have ei := e .i; have ej := e .j
  simp only [Regs.read] at ea eb ec ex ey ez ei ej
  subst ea eb ec ex ey ez ei ej
  rfl

/-! ### Fields after updates -/

section
variable (s : State) (v addr : Word) (r : Reg) (c : Bool)

@[simp] theorem setReg_mem : (s.setReg r v).mem = s.mem := rfl
@[simp] theorem setReg_regs : (s.setReg r v).regs = s.regs.write r v := rfl
@[simp] theorem setReg_pc : (s.setReg r v).pc = s.pc := rfl
@[simp] theorem setReg_sp : (s.setReg r v).sp = s.sp := rfl
@[simp] theorem setReg_overflow : (s.setReg r v).overflow = s.overflow := rfl

@[simp] theorem memWrite_mem : (s.memWrite addr v).mem = Memory.write s.mem addr.toNat v := rfl
@[simp] theorem memWrite_regs : (s.memWrite addr v).regs = s.regs := rfl
@[simp] theorem memWrite_pc : (s.memWrite addr v).pc = s.pc := rfl
@[simp] theorem memWrite_sp : (s.memWrite addr v).sp = s.sp := rfl
@[simp] theorem memWrite_overflow : (s.memWrite addr v).overflow = s.overflow := rfl

@[simp] theorem setPc_mem : (s.setPc v).mem = s.mem := rfl
@[simp] theorem setPc_regs : (s.setPc v).regs = s.regs := rfl
@[simp] theorem setPc_pc : (s.setPc v).pc = v := rfl
@[simp] theorem setPc_sp : (s.setPc v).sp = s.sp := rfl
@[simp] theorem setPc_overflow : (s.setPc v).overflow = s.overflow := rfl

@[simp] theorem setSp_mem : (s.setSp v).mem = s.mem := rfl
@[simp] theorem setSp_regs : (s.setSp v).regs = s.regs := rfl
@[simp] theorem setSp_pc : (s.setSp v).pc = s.pc := rfl
@[simp] theorem setSp_sp : (s.setSp v).sp = v := rfl
@[simp] theorem setSp_overflow : (s.setSp v).overflow = s.overflow := rfl

@[simp] theorem setOverflow_mem : (s.setOverflow c).mem = s.mem := rfl
@[simp] theorem setOverflow_regs : (s.setOverflow c).regs = s.regs := rfl
@[simp] theorem setOverflow_pc : (s.setOverflow c).pc = s.pc := rfl
@[simp] theorem setOverflow_sp : (s.setOverflow c).sp = s.sp := rfl
@[simp] theorem setOverflow_overflow : (s.setOverflow c).overflow = c := rfl

@[simp] theorem advance_mem : s.advance.mem = s.mem := rfl
@[simp] theorem advance_regs : s.advance.regs = s.regs := rfl
@[simp] theorem advance_pc : s.advance.pc = s.pc + 1 := rfl
@[simp] theorem advance_sp : s.advance.sp = s.sp := rfl
@[simp] theorem advance_overflow : s.advance.overflow = s.overflow := rfl

end

/-! ### Reads are reads of one field -/

theorem memRead_of_mem {s t : State} (h : s.mem = t.mem) (addr : Word) : s.memRead addr = t.memRead addr := by
  simp [State.memRead, h]

theorem reg_of_regs {s t : State} (h : s.regs = t.regs) (r : Reg) : s.reg r = t.reg r := by
  simp [State.reg, h]

section
variable (s : State) (v addr : Word) (r q : Reg) (c : Bool)

@[simp] theorem memRead_setReg : (s.setReg r v).memRead addr = s.memRead addr := rfl
@[simp] theorem memRead_setPc : (s.setPc v).memRead addr = s.memRead addr := rfl
@[simp] theorem memRead_setSp : (s.setSp v).memRead addr = s.memRead addr := rfl
@[simp] theorem memRead_setOverflow : (s.setOverflow c).memRead addr = s.memRead addr := rfl
@[simp] theorem memRead_advance : s.advance.memRead addr = s.memRead addr := rfl

@[simp] theorem reg_memWrite (w : Word) : (s.memWrite addr w).reg r = s.reg r := rfl
@[simp] theorem reg_setPc : (s.setPc v).reg r = s.reg r := rfl
@[simp] theorem reg_setSp : (s.setSp v).reg r = s.reg r := rfl
@[simp] theorem reg_setOverflow : (s.setOverflow c).reg r = s.reg r := rfl
@[simp] theorem reg_advance : s.advance.reg r = s.reg r := rfl

@[simp] theorem reg_setReg_same : (s.setReg r v).reg r = v := by simp [State.reg]

theorem reg_setReg_other (h : r ≠ q) : (s.setReg r v).reg q = s.reg q := by
  simp [State.reg, Regs.read_write_other _ _ _ _ h]

end

end Sys2Proof.Machine
end

