-- ==== Sys2Proof/Laws/Memory.lean ====
section
/-! SUPPORT. The laws of the memory array: read after write (rule R51), which holds of every list, and that every memory
operation keeps the canonical form. -/

namespace Sys2Proof.Machine

/-! ### Read after write -/

theorem Memory.read_erase_same (m : Memory) (n : Nat) : Memory.read (Memory.erase m n) n = Config.resetCell := by
  induction m with
  | nil => rfl
  | cons c m ih =>
    obtain ⟨addr, w⟩ := c
    by_cases h : addr = n <;> simp_all [Memory.erase, Memory.read]

theorem Memory.read_erase_other (m : Memory) (n k : Nat) (h : k ≠ n) :
    Memory.read (Memory.erase m n) k = Memory.read m k := by
  induction m with
  | nil => rfl
  | cons c m ih =>
    obtain ⟨addr, w⟩ := c
    by_cases h1 : addr = n <;> by_cases h2 : addr = k <;> simp_all [Memory.erase, Memory.read]

theorem Memory.read_insert_other (m : Memory) (n k : Nat) (v : Word) (h : k ≠ n) :
    Memory.read (Memory.insert m n v) k = Memory.read m k := by
  induction m with
  | nil => simp [Memory.insert, Memory.read, Ne.symm h]
  | cons c m ih =>
    obtain ⟨addr, w⟩ := c
    by_cases h1 : n < addr
    · simp [Memory.insert, Memory.read, h1, Ne.symm h]
    · simp [Memory.insert, Memory.read, h1, ih]

/-- An entry inserted where there is none for its address is the one a read finds. -/
theorem Memory.read_insert_same (m : Memory) (n : Nat) (v : Word) (h : ∀ c ∈ m, c.1 ≠ n) :
    Memory.read (Memory.insert m n v) n = v := by
  induction m with
  | nil => simp [Memory.insert, Memory.read]
  | cons c m ih =>
    obtain ⟨addr, w⟩ := c
    by_cases h1 : n < addr
    · simp [Memory.insert, Memory.read, h1]
    · have hne : addr ≠ n := h (addr, w) (by simp)
      simp [Memory.insert, Memory.read, h1, hne, ih fun c hc => h c (by simp [hc])]

theorem Memory.erase_fresh (m : Memory) (n : Nat) : ∀ c ∈ Memory.erase m n, c.1 ≠ n := by
  intro c hc
  simpa using (List.mem_filter.mp hc).2

@[simp] theorem Memory.read_write_same (m : Memory) (n : Nat) (v : Word) : Memory.read (Memory.write m n v) n = v := by
  unfold Memory.write
  split
  · next h => rw [Memory.read_erase_same, h]
  · exact Memory.read_insert_same _ _ _ (Memory.erase_fresh m n)

theorem Memory.read_write_other (m : Memory) (n k : Nat) (v : Word) (h : k ≠ n) :
    Memory.read (Memory.write m n v) k = Memory.read m k := by
  unfold Memory.write
  split
  · exact Memory.read_erase_other m n k h
  · rw [Memory.read_insert_other _ _ _ _ h, Memory.read_erase_other _ _ _ h]

@[simp] theorem memRead_memWrite_same (s : State) (addr v : Word) : (s.memWrite addr v).memRead addr = v := by
  simp [State.memRead]

theorem memRead_memWrite_other (s : State) (addr addr' v : Word) (h : addr' ≠ addr) :
    (s.memWrite addr v).memRead addr' = s.memRead addr' := by
  have hn : addr'.toNat ≠ addr.toNat := fun e => h (BitVec.eq_of_toNat_eq e)
  simp [State.memRead, Memory.read_write_other _ _ _ _ hn]

theorem memRead_memWrite (s : State) (addr addr' v : Word) :
    (s.memWrite addr v).memRead addr' = if addr' = addr then v else s.memRead addr' := by
  split
  · next h => subst h; simp
  · next h => exact memRead_memWrite_other s addr addr' v h

/-! ### The canonical form is kept -/

theorem Memory.wfFrom_cons {lo addr : Nat} {v : Word} {m : Memory} : Memory.wfFrom lo ((addr, v) :: m) = true ↔
    lo ≤ addr ∧ addr < Config.memoryWords ∧ v ≠ Config.resetCell ∧ Memory.wfFrom (addr + 1) m = true := by
  simp [Memory.wfFrom, and_assoc]

theorem Memory.wfFrom_mono {lo lo' : Nat} {m : Memory} (h : lo' ≤ lo) (hm : Memory.wfFrom lo m = true) :
    Memory.wfFrom lo' m = true := by
  cases m with
  | nil => rfl
  | cons c m =>
    obtain ⟨addr, v⟩ := c
    rw [Memory.wfFrom_cons] at hm ⊢
    exact ⟨le_trans h hm.1, hm.2⟩

theorem Memory.wfFrom_erase {lo : Nat} {m : Memory} (n : Nat) (hm : Memory.wfFrom lo m = true) :
    Memory.wfFrom lo (Memory.erase m n) = true := by
  induction m generalizing lo with
  | nil => rfl
  | cons c m ih =>
    obtain ⟨addr, v⟩ := c
    rw [Memory.wfFrom_cons] at hm
    by_cases h : addr = n
    · have e : Memory.erase ((addr, v) :: m) n = Memory.erase m n := by simp [Memory.erase, h]
      rw [e]
      exact Memory.wfFrom_mono (Nat.le_succ_of_le hm.1) (ih hm.2.2.2)
    · have e : Memory.erase ((addr, v) :: m) n = (addr, v) :: Memory.erase m n := by simp [Memory.erase, h]
      rw [e, Memory.wfFrom_cons]
      exact ⟨hm.1, hm.2.1, hm.2.2.1, ih hm.2.2.2⟩

theorem Memory.wfFrom_insert {lo n : Nat} {m : Memory} {v : Word} (hlo : lo ≤ n) (hn : n < Config.memoryWords)
    (hv : v ≠ Config.resetCell) (fresh : ∀ c ∈ m, c.1 ≠ n) (hm : Memory.wfFrom lo m = true) :
    Memory.wfFrom lo (Memory.insert m n v) = true := by
  induction m generalizing lo with
  | nil => exact Memory.wfFrom_cons.mpr ⟨hlo, hn, hv, rfl⟩
  | cons c m ih =>
    obtain ⟨addr, w⟩ := c
    rw [Memory.wfFrom_cons] at hm
    have hne : addr ≠ n := fresh (addr, w) (by simp)
    by_cases h : n < addr
    · simp only [Memory.insert, if_pos h]
      rw [Memory.wfFrom_cons, Memory.wfFrom_cons]
      exact ⟨hlo, hn, hv, h, hm.2⟩
    · simp only [Memory.insert, if_neg h]
      rw [Memory.wfFrom_cons]
      exact ⟨hm.1, hm.2.1, hm.2.2.1, ih (by omega) (fun c hc => fresh c (by simp [hc])) hm.2.2.2⟩

/-- Every write keeps the canonical form. -/
theorem Memory.wf_write {m : Memory} {n : Nat} (v : Word) (hn : n < Config.memoryWords) (hm : Memory.wf m = true) :
    Memory.wf (Memory.write m n v) = true := by
  unfold Memory.write
  split
  · exact Memory.wfFrom_erase n hm
  · next hv =>
    exact Memory.wfFrom_insert (Nat.zero_le n) hn hv (Memory.erase_fresh m n) (Memory.wfFrom_erase n hm)

theorem wf_memWrite {s : State} (addr v : Word) (h : s.wf = true) : (s.memWrite addr v).wf = true :=
  Memory.wf_write v addr.isLt h

theorem wf_of_mem {s t : State} (h : t.mem = s.mem) (hs : s.wf = true) : t.wf = true := by
  simpa [State.wf, h] using hs

theorem wf_storeWords {s : State} (addr : Word) (ws : List Word) (h : s.wf = true) : (s.storeWords addr ws).wf = true := by
  induction ws generalizing s addr with
  | nil => exact h
  | cons w ws ih => exact ih (addr + 1) (wf_memWrite addr w h)

/-- Storing words changes memory only. -/
theorem storeWords_rest (s : State) (addr : Word) (ws : List Word) :
    (s.storeWords addr ws).regs = s.regs ∧ (s.storeWords addr ws).pc = s.pc ∧ (s.storeWords addr ws).sp = s.sp ∧
      (s.storeWords addr ws).overflow = s.overflow := by
  induction ws generalizing s addr with
  | nil => exact ⟨rfl, rfl, rfl, rfl⟩
  | cons w ws ih => exact ih (s.memWrite addr w) (addr + 1)

@[simp] theorem storeWords_pc (s : State) (addr : Word) (ws : List Word) : (s.storeWords addr ws).pc = s.pc :=
  (storeWords_rest s addr ws).2.1

/-- A canonical memory lists no address below its lower bound. -/
theorem Memory.read_below {lo n : Nat} {m : Memory} (hm : Memory.wfFrom lo m = true) (h : n < lo) :
    Memory.read m n = Config.resetCell := by
  induction m generalizing lo with
  | nil => rfl
  | cons c m ih =>
    obtain ⟨addr, v⟩ := c
    rw [Memory.wfFrom_cons] at hm
    have hne : addr ≠ n := by omega
    simp [Memory.read, hne, ih hm.2.2.2 (by omega)]

end Sys2Proof.Machine
end

