-- ==== Sys2Proof/Laws/Operands.lean ====
section
/-! SUPPORT. What resolving an operand, reading a location and writing one can do. -/

namespace Sys2Proof.Machine

/-! ### Resolve -/

/-- A value code resolves, whatever the state is. -/
theorem resolve_ok_of_wf {c : Operand} (h : c.wf = true) (s : State) : ∃ l s1, resolve c s = .ok (l, s1) := by
  cases c with
  | shortLit n => exact ⟨_, _, if_pos (by simpa [Operand.wf] using h)⟩
  | _ => exact ⟨_, _, rfl⟩

/-- Anything else raises `UnknownValueCode` (rule R123). -/
theorem resolve_error_of_not_wf {c : Operand} (h : c.wf = false) (s : State) : resolve c s = .error .unknownValueCode := by
  cases c with
  | shortLit n => exact if_neg (by simpa [Operand.wf] using h)
  | _ => simp [Operand.wf] at h

theorem wf_of_resolve_ok {c : Operand} {s s1 : State} {l : Loc} (h : resolve c s = .ok (l, s1)) : c.wf = true := by
  by_contra hc
  rw [resolve_error_of_not_wf (by simpa using hc) s] at h
  cases h

/-- All that a resolution changes: `pc` by the operand words, `sp` by the stack forms; memory, registers and `O` never (rule
R110). -/
theorem resolve_next {c : Operand} {s s1 : State} {l : Loc} (h : resolve c s = .ok (l, s1)) :
    s1.mem = s.mem ∧ s1.regs = s.regs ∧ s1.overflow = s.overflow ∧
      s1.pc = s.pc + BitVec.ofNat 16 c.nextWords ∧
      s1.sp = s.sp + c.spStep := by
  cases c with
  | shortLit n =>
    by_cases hn : n < 32
    · simp [resolve, hn] at h
      obtain ⟨-, rfl⟩ := h
      simp [Operand.nextWords, Operand.spStep]
    · simp [resolve, hn] at h
  | push =>
    simp only [resolve, Except.ok.injEq, Prod.mk.injEq] at h
    obtain ⟨-, rfl⟩ := h
    simp [Operand.nextWords, Operand.spStep, BitVec.sub_eq_add_neg]
  | _ =>
    simp only [resolve, nextWord, Except.ok.injEq, Prod.mk.injEq] at h
    obtain ⟨-, rfl⟩ := h
    simp [Operand.nextWords, Operand.spStep]

/-- The location of an operand resolved in state `s`, by form (rules R111 to R122). -/
def locOf (c : Operand) (s : State) : Loc :=
  match c with
  | .reg r => .reg r
  | .regInd r => .mem (s.reg r)
  | .nextPlusReg r => .mem (s.memRead (s.pc + 1) + s.reg r)
  | .pop => .mem s.sp
  | .peek => .mem s.sp
  | .push => .mem (s.sp - 1)
  | .sp => .sp
  | .pc => .pc
  | .o => .o
  | .nextInd => .mem (s.memRead (s.pc + 1))
  | .nextLit => .lit (s.memRead (s.pc + 1))
  | .shortLit n => .lit (BitVec.ofNat 16 n)

/-- The location a resolution gives; its address or literal is that of the state before it. -/
theorem resolve_loc {c : Operand} {s s1 : State} {l : Loc} (h : resolve c s = .ok (l, s1)) : l = locOf c s := by
  cases c with
  | shortLit n =>
    by_cases hn : n < 32
    · simp [resolve, hn] at h
      exact h.1.symm
    · simp [resolve, hn] at h
  | _ =>
    simp only [resolve, nextWord, Except.ok.injEq, Prod.mk.injEq] at h
    exact h.1.symm

/-- Only the operand forms SP, PC, O and register give a live reference, each to its own register. -/
theorem locOf_eq_iff (c : Operand) (s : State) : (locOf c s = .sp ↔ c = .sp) ∧ (locOf c s = .pc ↔ c = .pc) ∧
    (locOf c s = .o ↔ c = .o) ∧ ∀ r : Reg, locOf c s = .reg r ↔ c = .reg r := by
  cases c <;> simp [locOf]

/-! ### Both operands -/

/-- `resolveBoth` is a's resolution followed by b's (rule R127). -/
theorem resolveBoth_eq_ok {a b : Operand} {s s2 : State} {la lb : Loc} : resolveBoth a b s = .ok (la, lb, s2) ↔
    ∃ s1, resolve a s = .ok (la, s1) ∧ resolve b s1 = .ok (lb, s2) := by
  unfold resolveBoth
  constructor
  · intro h
    split at h
    · cases h
    · next l s1 ha =>
      split at h
      · cases h
      · next l' s' hb =>
        cases h
        exact ⟨s1, ha, hb⟩
  · rintro ⟨s1, ha, hb⟩
    simp [ha, hb]

theorem resolveBoth_ok_of_wf {a b : Operand} (ha : a.wf = true) (hb : b.wf = true) (s : State) :
    ∃ la lb s2, resolveBoth a b s = .ok (la, lb, s2) := by
  obtain ⟨la, s1, h1⟩ := resolve_ok_of_wf ha s
  obtain ⟨lb, s2, h2⟩ := resolve_ok_of_wf hb s1
  exact ⟨la, lb, s2, resolveBoth_eq_ok.mpr ⟨s1, h1, h2⟩⟩

theorem resolveBoth_error_of_not_wf {a b : Operand} (h : (a.wf && b.wf) = false) (s : State) :
    resolveBoth a b s = .error .unknownValueCode := by
  unfold resolveBoth
  by_cases ha : a.wf = true
  · obtain ⟨la, s1, h1⟩ := resolve_ok_of_wf ha s
    have hb : b.wf = false := by simpa [ha] using h
    simp [h1, resolve_error_of_not_wf hb]
  · simp [resolve_error_of_not_wf (by simpa using ha)]

/-- All that resolving both operands changes. -/
theorem resolveBoth_next {a b : Operand} {s s2 : State} {la lb : Loc} (h : resolveBoth a b s = .ok (la, lb, s2)) :
    s2.mem = s.mem ∧ s2.regs = s.regs ∧ s2.overflow = s.overflow ∧
      s2.pc = s.pc + BitVec.ofNat 16 a.nextWords + BitVec.ofNat 16 b.nextWords ∧
      s2.sp = s.sp + a.spStep + b.spStep ∧ la = locOf a s := by
  obtain ⟨s1, ha, hb⟩ := resolveBoth_eq_ok.mp h
  obtain ⟨m1, r1, o1, p1, q1⟩ := resolve_next ha
  obtain ⟨m2, r2, o2, p2, q2⟩ := resolve_next hb
  exact ⟨m2.trans m1, r2.trans r1, o2.trans o1, by rw [p2, p1], by rw [q2, q1], resolve_loc ha⟩

/-! ### ReadLoc and WriteLoc -/

section
variable (l : Loc) (v : Word) (s : State)

/-- A write to a location that is no cell leaves memory as it was. -/
theorem writeLoc_mem (h : ∀ addr, l ≠ .mem addr) : (writeLoc l v s).mem = s.mem := by
  cases l with
  | mem addr => exact absurd rfl (h addr)
  | _ => rfl

/-- A write to a location that is no register leaves the registers as they were. -/
theorem writeLoc_regs (h : ∀ r, l ≠ .reg r) : (writeLoc l v s).regs = s.regs := by
  cases l with
  | reg r => exact absurd rfl (h r)
  | _ => rfl

theorem writeLoc_pc (h : l ≠ .pc) : (writeLoc l v s).pc = s.pc := by
  cases l with
  | pc => exact absurd rfl h
  | _ => rfl

theorem writeLoc_sp (h : l ≠ .sp) : (writeLoc l v s).sp = s.sp := by
  cases l with
  | sp => exact absurd rfl h
  | _ => rfl

theorem writeLoc_overflow (h : l ≠ .o) : (writeLoc l v s).overflow = s.overflow := by
  cases l with
  | o => exact absurd rfl h
  | _ => rfl

/-- A register that is not the location keeps its value. -/
theorem writeLoc_reg_other {r : Reg} (h : l ≠ .reg r) : (writeLoc l v s).reg r = s.reg r := by
  cases l with
  | reg q => exact reg_setReg_other s v q r fun e => h (e ▸ rfl)
  | _ => rfl

/-- A cell that is not the location keeps its word. -/
theorem writeLoc_memRead_other {addr : Word} (h : l ≠ .mem addr) : (writeLoc l v s).memRead addr = s.memRead addr := by
  cases l with
  | mem a' => exact memRead_memWrite_other s a' addr v fun e => h (e ▸ rfl)
  | _ => rfl

/-- Writing a location keeps the canonical form of the memory. -/
theorem wf_writeLoc (h : s.wf = true) : (writeLoc l v s).wf = true := by
  cases l with
  | mem addr => exact wf_memWrite addr v h
  | _ => exact h

end

end Sys2Proof.Machine
end

