-- ==== Sys2Proof/Laws/Cycle.lean ====
section
/-! SUPPORT. What one cycle, one instruction and one step can do, said once. -/

namespace Sys2Proof.Machine

/-! ### Completion of a cycle -/

section
variable (e : Effect) (l : Loc) (s : State) (skip : Bool)

@[simp] theorem finalAdvance_mem : (finalAdvance skip s).mem = s.mem := by cases skip <;> rfl
@[simp] theorem finalAdvance_regs : (finalAdvance skip s).regs = s.regs := by cases skip <;> rfl
@[simp] theorem finalAdvance_sp : (finalAdvance skip s).sp = s.sp := by cases skip <;> rfl
@[simp] theorem finalAdvance_overflow : (finalAdvance skip s).overflow = s.overflow := by cases skip <;> rfl
theorem finalAdvance_pc : (finalAdvance skip s).pc = s.pc + 1 + (if skip then 1 else 0) := by
  cases skip <;> simp [finalAdvance]

@[simp] theorem updateFlag_mem (o : Option Bool) : (updateFlag o s).mem = s.mem := by cases o <;> rfl
@[simp] theorem updateFlag_regs (o : Option Bool) : (updateFlag o s).regs = s.regs := by cases o <;> rfl
@[simp] theorem updateFlag_pc (o : Option Bool) : (updateFlag o s).pc = s.pc := by cases o <;> rfl
@[simp] theorem updateFlag_sp (o : Option Bool) : (updateFlag o s).sp = s.sp := by cases o <;> rfl
theorem updateFlag_overflow (o : Option Bool) : (updateFlag o s).overflow = o.getD s.overflow := by cases o <;> rfl

/-- A cycle keeps the canonical form of the memory. -/
theorem wf_complete (h : s.wf = true) : (complete e l s).wf = true := by
  have h1 : (updateFlag e.ovf s).wf = true := wf_of_mem (updateFlag_mem s e.ovf) h
  have h2 : (writeback e.wb l (updateFlag e.ovf s)).wf = true := by
    cases hw : e.wb with
    | none => simpa [writeback] using h1
    | some v => simpa [writeback] using wf_writeLoc l (mask16 v) _ h1
  exact wf_of_mem (finalAdvance_mem _ e.skip) h2

end

/-! ### One cycle -/

/-- The one case in which a cycle answers a next state, and that state. -/
theorem runCycle_next {f : Word → Word → Effect} {a b : Operand} {s t : State} :
    runCycle f a b s = .next t ↔ ∃ la lb s2, resolveBoth a b s = .ok (la, lb, s2) ∧
      t = complete (f (readLoc la s2) (readLoc lb s2)) la s2 := by
  unfold runCycle
  constructor
  · intro h
    split at h
    · cases h
    · next la lb s2 hr =>
      cases h
      exact ⟨la, lb, s2, hr, rfl⟩
  · rintro ⟨la, lb, s2, hr, rfl⟩
    simp [hr]

theorem runCycle_of_resolveBoth {f : Word → Word → Effect} {a b : Operand} {s s2 : State} {la lb : Loc}
    (h : resolveBoth a b s = .ok (la, lb, s2)) :
    runCycle f a b s = .next (complete (f (readLoc la s2) (readLoc lb s2)) la s2) :=
  runCycle_next.mpr ⟨la, lb, s2, h, rfl⟩

theorem runCycle_fault {f : Word → Word → Effect} {a b : Operand} (h : (a.wf && b.wf) = false) (s : State) :
    runCycle f a b s = .fault .unknownValueCode := by
  simp [runCycle, resolveBoth_error_of_not_wf h, raise]

/-! ### One instruction -/

/-- The opcode's own function, gathered for all instructions; NOP has no effect but its advance. -/
def effectOf : Instr → Word → Word → Effect
  | .nop _ => fun _ _ => { wb := none, skip := false, ovf := none }
  | .set _ _ => setEffect
  | .add _ _ => addEffect
  | .sub _ _ => subEffect
  | .mul _ _ => mulEffect
  | .div _ _ => divEffect
  | .mod _ _ => modEffect
  | .shl _ _ => shlEffect
  | .shr _ _ => shrEffect
  | .and _ _ => andEffect
  | .bor _ _ => borEffect
  | .xor _ _ => xorEffect
  | .ife _ _ => fun x y => skipEffect (ifeSkips x y)
  | .ifn _ _ => fun x y => skipEffect (ifnSkips x y)
  | .ifg _ _ => fun x y => skipEffect (ifgSkips x y)
  | .ifb _ _ => fun x y => skipEffect (ifbSkips x y)

/-- Every instruction with operands runs the shared cycle with its own function. -/
theorem exec_eq_runCycle {i : Instr} {a b : Operand} (h : i.operands = some (a, b)) (s : State) :
    exec i s = runCycle (effectOf i) a b s := by
  cases i with
  | nop _ => cases h
  | _ => cases h; rfl

/-- The two cases in which an instruction answers a next state, and that state. -/
theorem exec_next_cases {i : Instr} {s t : State} (h : exec i s = .next t) :
    (i.operands = none ∧ t = s.advance) ∨
    (∃ a b la lb s2, i.operands = some (a, b) ∧ resolveBoth a b s = .ok (la, lb, s2) ∧
      t = complete (effectOf i (readLoc la s2) (readLoc lb s2)) la s2) := by
  cases hop : i.operands with
  | none =>
    cases i with
    | nop _ => cases h; exact .inl ⟨rfl, rfl⟩
    | _ => cases hop
  | some p =>
    obtain ⟨a, b⟩ := p
    rw [exec_eq_runCycle hop] at h
    obtain ⟨la, lb, s2, hr, ht⟩ := runCycle_next.mp h
    exact .inr ⟨a, b, la, lb, s2, rfl, hr, ht⟩

/-- Only the opcodes of the "writeback" column produce a value (rule R84). -/
theorem effectOf_wb (i : Instr) (x y : Word) : (effectOf i x y).wb.isSome = i.writesBack := by cases i <;> rfl

/-- Only the opcodes of the "writes O" column write the flag (rules R30, R84). -/
theorem effectOf_ovf (i : Instr) (x y : Word) : (effectOf i x y).ovf.isSome = i.writesO := by cases i <;> rfl

/-- An opcode that writes back never skips (rule R214). -/
theorem effectOf_skip (i : Instr) (x y : Word) (h : i.writesBack = true) : (effectOf i x y).skip = false := by
  cases i <;> first | rfl | cases h

/-- Every instruction keeps the canonical form of the memory. -/
theorem exec_keeps_wf {i : Instr} {s t : State} (hs : s.wf = true) (h : exec i s = .next t) : t.wf = true := by
  obtain ⟨-, rfl⟩ | ⟨a, b, la, lb, s2, -, hr, rfl⟩ := exec_next_cases h
  · exact hs
  · exact wf_complete _ _ _ (wf_of_mem (resolveBoth_next hr).1 hs)

/-! ### Runs -/

/-- A run whose first step answers a next state goes on from there (rule R153), on any machine. -/
theorem run_succ_next (M : Host.Core) (n : Nat) {s t : M.State} (h : M.step s = .next t) : M.run (n + 1) s = M.run n t := by
  simp [Host.Core.run, h]

/-- The same for this machine. -/
theorem run_succ_of_step (n : Nat) {s t : State} (h : step s = .next t) :
    Host.Core.run Sys2Proof.core (n + 1) s = Host.Core.run Sys2Proof.core n t :=
  run_succ_next Sys2Proof.core n h

/-! ### The exact arithmetic of the shifts -/

/-- Shifting left by the capped amount stores what shifting by the whole word would (rule R190). -/
theorem shl_capped_mod (x y : Nat) : x * 2 ^ (min y 16) % 65536 = x * 2 ^ y % 65536 := by
  rcases Nat.le_total y 16 with h | h
  · rw [Nat.min_eq_left h]
  · rw [Nat.min_eq_right h]
    obtain ⟨k, rfl⟩ := Nat.exists_eq_add_of_le h
    rw [pow_add, ← mul_assoc]
    have e : (2 : Nat) ^ 16 = 65536 := by norm_num
    rw [e, Nat.mul_mod_left, mul_right_comm, Nat.mul_mod_left]

/-- ... and sets the flag it would (rule R190). -/
theorem shl_capped_gt (x y : Nat) : x * 2 ^ (min y 16) > 65535 ↔ x * 2 ^ y > 65535 := by
  rcases Nat.le_total y 16 with h | h
  · rw [Nat.min_eq_left h]
  · rw [Nat.min_eq_right h]
    have e : (2 : Nat) ^ 16 = 65536 := by norm_num
    have hp : (65536 : Nat) ≤ 2 ^ y := e ▸ Nat.pow_le_pow_right (by norm_num) h
    rcases Nat.eq_zero_or_pos x with rfl | hx
    · simp
    · constructor
      · intro _
        calc 65535 < 1 * 65536 := by norm_num
          _ ≤ x * 2 ^ y := Nat.mul_le_mul hx hp
      · intro _
        rw [e]
        omega

/-- Shifting a word right by the capped amount stores what shifting by the whole word would (rule R191). -/
theorem shr_capped_div (x y : Nat) (hx : x < 65536) : x / 2 ^ (min y 16) = x / 2 ^ y := by
  rcases Nat.le_total y 16 with h | h
  · rw [Nat.min_eq_left h]
  · rw [Nat.min_eq_right h]
    have e : (2 : Nat) ^ 16 = 65536 := by norm_num
    have hp : (65536 : Nat) ≤ 2 ^ y := e ▸ Nat.pow_le_pow_right (by norm_num) h
    rw [Nat.div_eq_of_lt (by omega), Nat.div_eq_of_lt (by omega)]

/-- ... and loses the bits it would (rule R191). -/
theorem shr_capped_mod (x y : Nat) (hx : x < 65536) : x % 2 ^ (min y 16) = x % 2 ^ y := by
  rcases Nat.le_total y 16 with h | h
  · rw [Nat.min_eq_left h]
  · rw [Nat.min_eq_right h]
    have e : (2 : Nat) ^ 16 = 65536 := by norm_num
    have hp : (65536 : Nat) ≤ 2 ^ y := e ▸ Nat.pow_le_pow_right (by norm_num) h
    rw [Nat.mod_eq_of_lt (by omega), Nat.mod_eq_of_lt (by omega)]

/-- `mask16` of a natural number is that number as a word. -/
theorem mask16_ofNat (n : Nat) : mask16 (n : Int) = BitVec.ofNat 16 n := by
  simp [mask16]

end Sys2Proof.Machine
end

