-- ==== Sys2Proof/Laws/Encoding.lean ====
section
/-! SUPPORT. The small laws of the two encoding maps (rules R84, R86). -/

namespace Sys2Proof

theorem Reg.index_lt (r : Reg) : r.index < 8 := by cases r <;> decide

theorem Reg.regOf_index (r : Reg) : regOf r.index = r := by cases r <;> rfl

theorem index_regOf (n : Nat) : (regOf n).index = n % 8 := by
  have h : n % 8 < 8 := Nat.mod_lt n (by decide)
  unfold regOf
  generalize n % 8 = k at h
  interval_cases k <;> rfl

theorem Operand.code_lt {c : Operand} (h : c.wf = true) : c.code < 64 := by
  cases c with
  | shortLit n =>
    have : n < 32 := by simpa [Operand.wf] using h
    simp only [Operand.code]
    omega
  | reg r => have := r.index_lt; simp only [Operand.code]; omega
  | regInd r => have := r.index_lt; simp only [Operand.code]; omega
  | nextPlusReg r => have := r.index_lt; simp only [Operand.code]; omega
  | _ => decide

/-- The operand with an operand's code is that operand. -/
theorem operandOf_code (c : Operand) : operandOf c.code = c := by
  cases c with
  | shortLit n =>
    have h1 : ¬ 32 + n < 8 := by omega
    have h2 : ¬ 32 + n < 16 := by omega
    have h3 : ¬ 32 + n < 24 := by omega
    have h4 : ¬ 32 + n < 32 := by omega
    simp [operandOf, Operand.code, h1, h2, h3, h4]
  | reg r => cases r <;> rfl
  | regInd r => cases r <;> rfl
  | nextPlusReg r => cases r <;> rfl
  | _ => rfl

/-- The code of the operand with a given code is that code. -/
theorem code_operandOf (c : Nat) : (operandOf c).code = c := by
  rcases Nat.lt_or_ge c 32 with h | h
  · interval_cases c <;> rfl
  · have h1 : ¬ c < 8 := by omega
    have h2 : ¬ c < 16 := by omega
    have h3 : ¬ c < 24 := by omega
    have h4 : ¬ c < 32 := by omega
    simp [operandOf, Operand.code, h1, h2, h3, h4]
    omega

/-- The operands of the hardware are the codes 0 to 63 (rules R81, R123). -/
theorem wf_operandOf (c : Nat) : (operandOf c).wf = decide (c < 64) := by
  rcases Nat.lt_or_ge c 32 with h | h
  · interval_cases c <;> rfl
  · have h1 : ¬ c < 8 := by omega
    have h2 : ¬ c < 16 := by omega
    have h3 : ¬ c < 24 := by omega
    have h4 : ¬ c < 32 := by omega
    simp [operandOf, Operand.wf, h1, h2, h3, h4]
    omega

theorem Instr.opcode_lt (i : Instr) : i.opcode < 16 := by cases i <;> simp [Instr.opcode]

/-- The three fields of a word put together from three numbers that fit. -/
theorem fields_of_word {op a b : Nat} (hop : op < 16) (ha : a < 64) (hb : b < 64) :
    opField (BitVec.ofNat 16 (b * 1024 + a * 16 + op)) = op ∧ aField (BitVec.ofNat 16 (b * 1024 + a * 16 + op)) = a ∧
      bField (BitVec.ofNat 16 (b * 1024 + a * 16 + op)) = b := by
  have h : b * 1024 + a * 16 + op < 65536 := by omega
  simp only [opField, aField, bField, BitVec.toNat_ofNat]
  norm_num
  rw [Nat.mod_eq_of_lt h]
  omega

/-- A word is put together from its three fields (rule R81). -/
theorem word_of_fields (w : Word) : bField w * 1024 + aField w * 16 + opField w = w.toNat := by
  simp only [opField, aField, bField]
  omega

end Sys2Proof
end

