-- ==== Sys2Proof/Laws/PerInstr.lean ====
section
/-! SUPPORT. A statement for all instructions, one lemma for each constructor: an encoded well-formed instruction holds its
opcode and its two operand codes in the three fields of its word (rule R81). -/

namespace Sys2Proof.Laws.EncodedFields

/-- The three fields of the encoded word, each within its width. -/
def Statement (i : Instr) : Prop :=
  i.wf = true → opField (encode i) = i.opcode ∧ aField (encode i) = i.codeA ∧ bField (encode i) = i.codeB

/-- The shape shared by the fifteen opcodes with operands. -/
theorem of_operands {i : Instr} {a b : Operand} (hop : i.operands = some (a, b))
    (ha : i.codeA = a.code) (hb : i.codeB = b.code) : Statement i := by
  intro h
  have hw : a.wf = true ∧ b.wf = true := by simpa [Instr.wf, hop] using h
  exact fields_of_word (Instr.opcode_lt i) (ha ▸ Operand.code_lt hw.1) (hb ▸ Operand.code_lt hw.2)

theorem nop (ignored : BitVec 12) : Statement (.nop ignored) := by
  intro _
  have h := ignored.isLt
  exact fields_of_word (Instr.opcode_lt (.nop ignored)) (by simp only [Instr.codeA]; omega) (by simp only [Instr.codeB]; omega)

theorem set (a b : Operand) : Statement (.set a b) := of_operands rfl rfl rfl
theorem add (a b : Operand) : Statement (.add a b) := of_operands rfl rfl rfl
theorem sub (a b : Operand) : Statement (.sub a b) := of_operands rfl rfl rfl
theorem mul (a b : Operand) : Statement (.mul a b) := of_operands rfl rfl rfl
theorem div (a b : Operand) : Statement (.div a b) := of_operands rfl rfl rfl
theorem mod (a b : Operand) : Statement (.mod a b) := of_operands rfl rfl rfl
theorem shl (a b : Operand) : Statement (.shl a b) := of_operands rfl rfl rfl
theorem shr (a b : Operand) : Statement (.shr a b) := of_operands rfl rfl rfl
theorem and (a b : Operand) : Statement (.and a b) := of_operands rfl rfl rfl
theorem bor (a b : Operand) : Statement (.bor a b) := of_operands rfl rfl rfl
theorem xor (a b : Operand) : Statement (.xor a b) := of_operands rfl rfl rfl
theorem ife (a b : Operand) : Statement (.ife a b) := of_operands rfl rfl rfl
theorem ifn (a b : Operand) : Statement (.ifn a b) := of_operands rfl rfl rfl
theorem ifg (a b : Operand) : Statement (.ifg a b) := of_operands rfl rfl rfl
theorem ifb (a b : Operand) : Statement (.ifb a b) := of_operands rfl rfl rfl

end Sys2Proof.Laws.EncodedFields
end

