-- ==== Sys2Proof/Tests/Slice0.lean ====
section
/-! SUPPORT. Tests: the decoder on words written out from the spec's encoding, the check of well-formedness on ill-formed
terms, one or two single steps for each instruction with results from the tables of spec/95_test_vectors.md (the vector's id is in
the comment), and for each statement with hypotheses a witness that meets them. -/

open Sys2Proof Sys2Proof.Machine

namespace Sys2Proof.Tests

/-! ### Well-formedness: the one check, and what it refuses -/

theorem test_literal_32_is_ill_formed : (Operand.shortLit 32).wf = false := by decide
theorem test_literal_31_is_well_formed : (Operand.shortLit 31).wf = true := by decide
theorem test_ill_formed_destination_refused : (Instr.set (.shortLit 32) (.reg .a)).wf = false := by decide
theorem test_ill_formed_source_refused : (Instr.ifb (.reg .a) (.shortLit 40)).wf = false := by decide
theorem test_literal_destination_is_legal : (Instr.set (.shortLit 5) (.reg .a)).wf = true := by decide

/-! ### Decoding, every constructor: the word is bbbbbb aaaaaa oooo in binary (rules R80, R84, R86) -/

-- b = 63, a = 63, op = 0 (V-CYC-2)
theorem test_decode_nop : decode 0b111111_111111_0000#16 = .ok (.nop 0xFFF#12) := by decide
-- SET A, 5: b = 37, a = 0, op = 1 (rule R91, 0x9401)
theorem test_decode_set : decode 0b100101_000000_0001#16 = .ok (.set (.reg .a) (.shortLit 5)) := by decide
-- ADD POP, POP: b = 24, a = 24, op = 2 (V-RES-7, 0x6182)
theorem test_decode_add : decode 0b011000_011000_0010#16 = .ok (.add .pop .pop) := by decide
-- SUB PC, 1: b = 33, a = 28, op = 3 (V-RES-32, 0x85C3)
theorem test_decode_sub : decode 0b100001_011100_0011#16 = .ok (.sub .pc (.shortLit 1)) := by decide
-- MUL 3, Y: b = 4, a = 35, op = 4 (program P4, 0x1234)
theorem test_decode_mul : decode 0b000100_100011_0100#16 = .ok (.mul (.shortLit 3) (.reg .y)) := by decide
-- DIV O, 0: b = 32, a = 29, op = 5 (V-FLG-4, 0x81D5)
theorem test_decode_div : decode 0b100000_011101_0101#16 = .ok (.div .o (.shortLit 0)) := by decide
-- MOD O, 1: b = 33, a = 29, op = 6 (V-FLG-9, 0x85D6)
theorem test_decode_mod : decode 0b100001_011101_0110#16 = .ok (.mod .o (.shortLit 1)) := by decide
-- SHL SP, PUSH: b = 26, a = 27, op = 7
theorem test_decode_shl : decode 0b011010_011011_0111#16 = .ok (.shl .sp .push) := by decide
-- SHR C, 4: b = 36, a = 2, op = 8 (program P1, 0x9028)
theorem test_decode_shr : decode 0b100100_000010_1000#16 = .ok (.shr (.reg .c) (.shortLit 4)) := by decide
-- AND [nw], PEEK: b = 25, a = 30, op = 9
theorem test_decode_and : decode 0b011001_011110_1001#16 = .ok (.and .nextInd .peek) := by decide
-- BOR [X], [J]: b = 15, a = 11, op = 10
theorem test_decode_bor : decode 0b001111_001011_1010#16 = .ok (.bor (.regInd .x) (.regInd .j)) := by decide
-- XOR A, C: b = 2, a = 0, op = 11 (program P1, 0x080B)
theorem test_decode_xor : decode 0b000010_000000_1011#16 = .ok (.xor (.reg .a) (.reg .c)) := by decide
-- IFE A, nw: b = 31, a = 0, op = 12 (V-RES-28, 0x7C0C)
theorem test_decode_ife : decode 0b011111_000000_1100#16 = .ok (.ife (.reg .a) .nextLit) := by decide
-- IFN I, 0: b = 32, a = 6, op = 13 (rule R91, 0x806D)
theorem test_decode_ifn : decode 0b100000_000110_1101#16 = .ok (.ifn (.reg .i) (.shortLit 0)) := by decide
-- IFG 4, I: b = 6, a = 36, op = 14 (program P5, 0x1A4E)
theorem test_decode_ifg : decode 0b000110_100100_1110#16 = .ok (.ifg (.shortLit 4) (.reg .i)) := by decide
-- IFB [nw+Z], [nw+B]: b = 17, a = 21, op = 15
theorem test_decode_ifb : decode 0b010001_010101_1111#16 = .ok (.ifb (.nextPlusReg .z) (.nextPlusReg .b)) := by decide

/-- The examples of rule R91, with their lengths. -/
theorem test_encode_r91 :
    encode (.set (.reg .a) (.shortLit 5)) = 0x9401#16 ∧ encode (.add (.reg .a) (.shortLit 1)) = 0x8402#16 ∧
    encodeWords (.set (.reg .a) .nextLit) 0 0x30 = [0x7C01#16, 0x0030#16] ∧
    encodeWords (.set .nextInd .nextLit) 0x1000 0x20 = [0x7DE1#16, 0x1000#16, 0x0020#16] ∧
    encode (.ifn (.reg .i) (.shortLit 0)) = 0x806D#16 := by decide

/-- A table word is read from its 16 low bits, and the operand words above `nbits` are zero. -/
theorem test_table_word : decodeTableWord 16 0x9401 = some (.set (.reg .a) (.shortLit 5)) ∧ tableWord 16 0x12349401 1 = 0 := by
  decide

/-! ### Single steps -/

/-- Words at `pc`, and A, B, sp and O; all else as at reset. -/
def start (ws : List Word) (pc a b sp : Word) (o : Bool) : State :=
  (((((State.reset.storeWords pc ws).setPc pc).setReg .a a).setReg .b b).setSp sp).setOverflow o

/-- A, pc, sp, O and one memory word after an outcome. -/
def seen (addr : Word) : Host.Outcome State Fault Refusal → Option (Word × Word × Word × Bool × Word)
  | .next t => some (t.reg .a, t.pc, t.sp, t.overflow, t.memRead addr)
  | .fault _ => none
  | .refused _ => none

/-- A, pc and O after one step of the word `w` at 0 with the given A, B and O (the form of the tables' sections 4 to 6). -/
def alu (w a b : Word) (o : Bool) : Option (Word × Word × Bool) :=
  (seen 0 (step (start [w] 0 a b 0 o))).map fun r => (r.1, r.2.1, r.2.2.2.1)

-- V-CYC-2, V-CYC-5
theorem test_nop : seen 0 (step (start [0xFFF0] 0x10 1 0 0x1234 true)) = some (1, 0x11, 0x1234, true, 0) ∧
    seen 0 (step (start [0x0000] 0xFFFF 0 0 0 false)) = some (0, 0, 0, false, 0) := by decide
-- V-SET-1, V-SET-2
theorem test_set : alu 0x0401 0x1234 0xBEEF true = some (0xBEEF, 1, true) ∧ alu 0x0401 0 0 false = some (0, 1, false) := by decide
-- V-RES-20: SET [0x0100+A], [0x0200+A], a's word first
theorem test_set_word_order : seen 0x0105 (step ((start [0x4101, 0x0100, 0x0200] 0x10 5 0 0 false).memWrite 0x0205 0xCAFE)) =
    some (5, 0x13, 0, false, 0xCAFE) := by decide
-- V-ADD-1, V-ADD-3
theorem test_add : alu 0x0402 0xFFFF 1 false = some (0, 1, true) ∧ alu 0x0402 0x7FFF 1 true = some (0x8000, 1, false) := by decide
-- V-RES-7: ADD POP, POP
theorem test_add_pop_pop : seen 0x8000 (step (((start [0x6182] 0x10 0 0 0x8000 false).memWrite 0x8000 3).memWrite 0x8001 4)) =
    some (0, 0x11, 0x8002, false, 7) := by decide
-- V-SUB-2, V-SUB-3
theorem test_sub : alu 0x0403 0 1 false = some (0xFFFF, 1, true) ∧ alu 0x0403 0x1234 0x1234 true = some (0, 1, false) := by decide
-- V-RES-32: SUB PC, 1 runs itself again
theorem test_sub_pc : seen 0 (step (start [0x85C3] 0x10 0 0 0 false)) = some (0, 0x10, 0, false, 0) := by decide
-- V-MUL-2, V-MUL-3
theorem test_mul : alu 0x0404 0x00FF 0x0101 true = some (0xFFFF, 1, false) ∧ alu 0x0404 0xFFFF 0xFFFF false = some (1, 1, true) := by
  decide
-- V-FLG-7: MUL O, 2
theorem test_mul_o : seen 0 (step (start [0x89D4] 0x10 0 0 0 true)) = some (0, 0x11, 0, true, 0) := by decide
-- V-DIV-1, V-DIV-7
theorem test_div : alu 0x0405 7 0 false = some (0, 1, true) ∧ alu 0x0405 0x8000 3 false = some (0x2AAA, 1, false) := by decide
-- V-FLG-4: DIV O, 0
theorem test_div_o : seen 0 (step (start [0x81D5] 0x10 0 0 0 true)) = some (0, 0x11, 0, false, 0) := by decide
-- V-MOD-2, V-MOD-4
theorem test_mod : alu 0x0406 7 0 true = some (0, 1, true) ∧ alu 0x0406 0xFFFF 0x0100 false = some (0x00FF, 1, false) := by decide
-- V-SHL-8, V-SHL-10
theorem test_shl : alu 0x0407 1 0xFFFF false = some (0, 1, true) ∧ alu 0x0407 0x01FF 8 false = some (0xFF00, 1, true) := by decide
-- V-SHL-4, V-SHL-6
theorem test_shl_edges : alu 0x0407 1 0x000F false = some (0x8000, 1, false) ∧ alu 0x0407 0 0x0010 true = some (0, 1, false) := by
  decide
-- V-SHR-7, V-SHR-3
theorem test_shr : alu 0x0408 1 0x0011 false = some (0, 1, true) ∧ alu 0x0408 0xFFF0 4 true = some (0x0FFF, 1, false) := by decide
-- V-FLG-8: SHR O, 1
theorem test_shr_o : seen 0 (step (start [0x85D8] 0x10 0 0 0 true)) = some (0, 0x11, 0, false, 0) := by decide
-- V-AND-1, V-AND-2
theorem test_and : alu 0x0409 0xF0F0 0xFF00 true = some (0xF000, 1, true) ∧ alu 0x0409 0xF0F0 0x0F0F false = some (0, 1, false) := by
  decide
-- V-FLG-10: AND O, 0
theorem test_and_o : seen 0 (step (start [0x81D9] 0x10 0 0 0 true)) = some (0, 0x11, 0, false, 0) := by decide
-- V-BOR-1
theorem test_bor : alu 0x040A 0xF0F0 0x0F0F true = some (0xFFFF, 1, true) := by decide
-- V-XOR-1, V-XOR-2
theorem test_xor : alu 0x040B 0xFFFF 0xFFFF true = some (0, 1, true) ∧ alu 0x040B 0xAAAA 0x5555 false = some (0xFFFF, 1, false) := by
  decide
-- V-IFE-1, V-IFE-2
theorem test_ife : alu 0x040C 5 5 false = some (5, 1, false) ∧ alu 0x040C 5 6 true = some (5, 2, true) := by decide
-- V-RES-27: IFE POP, 0 still pops
theorem test_ife_pops : seen 0 (step (start [0x818C] 0x10 0 0 0x8000 false)) = some (0, 0x11, 0x8001, false, 0) := by decide
-- V-IFN-1, V-IFN-2
theorem test_ifn : alu 0x040D 5 5 false = some (5, 2, false) ∧ alu 0x040D 5 6 true = some (5, 1, true) := by decide
-- V-CYC-9: IFN long(1), long(1), three words and a skip
theorem test_ifn_three_words : seen 0 (step (start [0x7DFD, 1, 1] 0x10 0 0 0 false)) = some (0, 0x14, 0, false, 0) := by decide
-- V-IFG-2, V-IFG-5
theorem test_ifg : alu 0x040E 5 5 false = some (5, 2, false) ∧ alu 0x040E 0x8000 0x7FFF false = some (0x8000, 1, false) := by decide
-- V-IFB-1, V-IFB-2
theorem test_ifb : alu 0x040F 0x00F0 0x0010 false = some (0x00F0, 1, false) ∧
    alu 0x040F 0x00F0 0x0F0F false = some (0x00F0, 2, false) := by decide

/-! ### The host -/

-- V-LD-1, V-LD-2
theorem test_load : seen 0x0101 (hostLoad 0x0100 [0x1111, 0x2222] State.reset) = some (0, 0, 0, false, 0x2222) ∧
    seen 0xFFFF (hostLoad 0xFFFF [1] State.reset) = some (0, 0, 0, false, 1) ∧
    seen 0xFFFF (hostLoad 0xFFFF [1, 2] State.reset) = none := by decide
-- V-RES-18: an instruction that overwrites its own operand word finishes with the old one, and the write stays canonical
theorem test_write_of_zero_is_unlisted : (State.reset.memWrite 5 7).memWrite 5 0 = State.reset ∧
    ((State.reset.memWrite 9 1).memWrite 5 7).mem = [(5, 7), (9, 1)] := by decide

/-! ### Witnesses: for each statement with hypotheses, a state and operands that meet all of them -/

/-- A state whose memory lists a cell, with `sp` and A pointing at it. -/
def busy : State := start [0x8482] 0x10 0x2000 0 0x2000 true |>.memWrite 0x2000 7

theorem witness_DecodeOfEncodeIsTheInstruction : (Instr.set .nextInd (.shortLit 31)).wf = true := by decide

theorem witness_WordsAndTriplesCorrespond : 15 < 16 ∧ 63 < 64 ∧ decode 0xFFFF#16 = .ok (.ifb (.shortLit 31) (.shortLit 31)) ∧
    (Instr.ifb (.shortLit 31) (.shortLit 31)).opcode = 15 ∧ (Instr.ifb (.shortLit 31) (.shortLit 31)).codeA = 63 ∧
    (Instr.ifb (.shortLit 31) (.shortLit 31)).codeB = 63 := by decide

theorem witness_OpcodeMapByNumber : 63 < 64 ∧ 0 < 64 ∧ 31 < 32 ∧
    ([.a, .b, .c, .x, .y, .z, .i, .j] : List Reg)[0]? = some .a ∧
    ([.a, .b, .c, .x, .y, .z, .i, .j] : List Reg)[7]? = some .j := by decide

theorem witness_EncodedWordsRunInPlace : (Instr.set .nextInd .nextLit).wf = true ∧
    (Instr.set .nextInd .nextLit).operands = some (.nextInd, .nextLit) ∧ Operand.nextInd.nextWords = 1 ∧
    Operand.nextLit.nextWords = 1 := by decide

theorem witness_StepKeepsMemoryCanonical : ∃ t : State, busy.wf = true ∧ step busy = .next t := ⟨_, rfl, rfl⟩

theorem witness_EqualReadsMeanEqualStates : busy.wf = true ∧ (∀ addr : Word, busy.memRead addr = busy.memRead addr) ∧
    (∀ r : Reg, busy.reg r = busy.reg r) := ⟨rfl, fun _ => rfl, fun _ => rfl⟩

theorem witness_StepRunsTheDecodedInstruction : decode (busy.memRead busy.pc) = .ok (.add (.regInd .a) (.shortLit 1)) := by decide

theorem witness_FetchWordRunsNext : decodeTableWord 16 0xFFFF = some (.ifb (.shortLit 31) (.shortLit 31)) := by decide

theorem witness_ExecFaultsExactlyOutsideTheValueCodes : 63 < 64 ∧ operandOf 64 = .shortLit 32 ∧
    (Instr.set (.reg .a) (.shortLit 32)).wf = false ∧ (Instr.set (.reg .a) (.shortLit 31)).wf = true := by decide

theorem witness_UnknownOpcodeLeavesTheState :
    (fun _ : Word => (Except.error .unknownOpcode : Except DecodeError Instr)) (busy.memRead busy.pc) = .error .unknownOpcode := rfl

/-- One witness for each clause at both ends of its range of codes; the ranges do not overlap. -/
theorem witness_ResolveByValueCode :
    [0, 7, 8, 15, 16, 23, 24, 25, 26, 27, 28, 29, 30, 31, 32, 63, 64].map operandOf =
      [.reg .a, .reg .j, .regInd .a, .regInd .j, .nextPlusReg .a, .nextPlusReg .j, .pop, .peek, .push, .sp, .pc, .o, .nextInd,
        .nextLit, .shortLit 0, .shortLit 31, .shortLit 32] := by decide

theorem witness_OperandAIsResolvedBeforeB :
    resolve .push busy = .ok (.mem 0x1FFF, busy.setSp 0x1FFF) ∧
    resolve .pop (busy.setSp 0x1FFF) = .ok (.mem 0x1FFF, busy) := by decide

theorem witness_OperandWordsInMemoryOrder : Operand.nextInd.wf = true ∧ Operand.nextLit.wf = true ∧
    (Operand.nextPlusReg .a).wf = true := by decide

theorem witness_WriteLocWritesThatLocationOnly : Loc.mem 5 ≠ Loc.mem 6 ∧ Loc.reg .a ≠ Loc.reg .j ∧ Loc.o ≠ Loc.sp := by decide

theorem witness_SetStoresB : Operand.push.wf = true ∧ Operand.nextLit.wf = true := by decide

/-- The hypotheses shared by the statements on ADD, SUB, MUL, SHL, SHR; a register, a cell and a literal as destination. -/
theorem witness_flag_writer_results : (Operand.reg .a).wf = true ∧ Operand.reg .a ≠ .o ∧ Operand.push.wf = true ∧
    Operand.push ≠ .o ∧ (Operand.shortLit 31).wf = true ∧ Operand.shortLit 31 ≠ .o := by decide

/-- Both clauses of the statements on DIV and MOD: `y = 0`, and `x = q * y + r` with `r < y`, at x = 7. -/
theorem witness_division_clauses : (Operand.reg .a).wf = true ∧ Operand.reg .a ≠ .o ∧ (0 : Nat) = 0 ∧ 7 = 3 * 2 + 1 ∧ 1 < 2 := by
  decide

theorem witness_LogicWorksBitByBit : (Operand.reg .a).wf = true ∧ Operand.o.wf = true ∧ 15 < 16 := by decide

theorem witness_ConditionalsSkipOnTheirCondition : Operand.pop.wf = true ∧ Operand.nextLit.wf = true := by decide

theorem witness_NopOnlyAdvancesPc : (State.reset.memRead State.reset.pc).toNat % 16 = 0 ∧
    ((State.reset.memWrite 0 0xFFF0).memRead 0).toNat % 16 = 0 := by decide

theorem witness_ArithmeticIntoO : (Instr.add .o .nextLit).operands = some (.o, .nextLit) ∧
    (Instr.add .o .nextLit).writesBack = true ∧ Operand.nextLit.wf = true ∧
    (Instr.set .o .pop).operands = some (.o, .pop) ∧ (Instr.set .o .pop).writesBack = true := by decide

theorem witness_OReadsZeroOrOneAndStoresNonzero : Operand.o.wf = true ∧ Operand.nextLit.wf = true := by decide

theorem witness_PcReadsTheLastConsumedWord : Operand.nextInd.wf = true ∧ Operand.pc.wf = true := by decide

theorem witness_WritingPcContinuesOnePast : (Instr.sub .pc (.shortLit 1)).operands = some (.pc, .shortLit 1) ∧
    (Instr.sub .pc (.shortLit 1)).writesBack = true ∧ (Operand.shortLit 1).wf = true := by decide

theorem witness_PcAdvancesByTheLengthAndTheSkip : (Instr.ifn .pc .nextLit).operands = some (.pc, .nextLit) ∧
    (Instr.ifn .pc .nextLit).wf = true ∧ ((Instr.ifn .pc .nextLit).writesBack = true → Operand.pc ≠ .pc) ∧
    ((Instr.add .sp .pc).writesBack = true → Operand.sp ≠ .pc) := by decide

theorem witness_SpChangesOnlyByStackFormsAndWrites : (Instr.set .sp .push).operands = some (.sp, .push) ∧
    (Instr.set .sp .push).wf = true ∧ (Instr.set .sp .push).writesBack = true ∧ (Instr.ife .sp .pop).writesBack = false ∧
    Operand.pop ≠ .sp := by decide

theorem witness_PushThenPopReturnsTheWord : (Operand.shortLit 31).wf = true ∧ (Operand.reg .a).wf = true ∧
    Operand.nextLit.wf = true := by decide

theorem witness_FrameOfFlagWritingOpcodes : ∃ t s2 : State,
    (Instr.add (.regInd .a) (.shortLit 1)).operands = some (.regInd .a, .shortLit 1) ∧
    (Instr.add (.regInd .a) (.shortLit 1)).writesO = true ∧
    resolveBoth (.regInd .a) (.shortLit 1) busy = .ok (.mem 0x2000, .lit 1, s2) ∧
    exec (.add (.regInd .a) (.shortLit 1)) busy = .next t := ⟨_, _, rfl, rfl, rfl, rfl⟩

theorem witness_FrameOfFlagKeepingWriters : ∃ t s2 : State,
    (Instr.mod .push (.reg .a)).operands = some (.push, .reg .a) ∧ (Instr.mod .push (.reg .a)).writesBack = true ∧
    (Instr.mod .push (.reg .a)).writesO = false ∧
    resolveBoth .push (.reg .a) busy = .ok (.mem 0x1FFF, .reg .a, s2) ∧
    exec (.mod .push (.reg .a)) busy = .next t := ⟨_, _, rfl, rfl, rfl, rfl, rfl⟩

theorem witness_FrameOfConditionalsAndNop : ∃ t u : State, (Instr.ife .pop .push).writesBack = false ∧
    exec (.ife .pop .push) busy = .next t ∧ (Instr.nop 0).writesBack = false ∧ exec (.nop 0) busy = .next u :=
  ⟨_, _, rfl, rfl, rfl, rfl⟩

theorem witness_StepWritesAtMostOneCell : ∃ t : State, step busy = .next t ∧ t.memRead 0x2000 ≠ busy.memRead 0x2000 :=
  ⟨_, rfl, by decide⟩

theorem witness_LiteralDestinationOnlySetsTheFlag : (Instr.add (.shortLit 31) .nextLit).operands = some (.shortLit 31, .nextLit) ∧
    (Instr.add (.shortLit 31) .nextLit).wf = true ∧ (Instr.add (.shortLit 31) .nextLit).writesBack = true ∧
    (Instr.set .nextLit (.reg .a)).operands = some (.nextLit, .reg .a) := by decide

theorem witness_UnnamedRegistersDoNotMatter : ∃ t : State,
    (Operand.regInd .a).namesReg .b = false ∧ (Operand.shortLit 1).namesReg .b = false ∧
    exec (.add (.regInd .a) (.shortLit 1)) busy = .next t := ⟨_, by decide, by decide, rfl⟩

/-- `SET [A], B` at 0x10 with A = 0x11 stores B = 0x8402 (`ADD A, 1`) where the next instruction is fetched. -/
theorem witness_StoreIsSeenByTheNextFetch : ∃ s t : State,
    (Instr.set (.regInd .a) (.reg .b)).operands = some (.regInd .a, .reg .b) ∧
    resolveBoth (.regInd .a) (.reg .b) s = .ok (.mem t.pc, .reg .b, s) ∧
    Reference.exec (Instr.set (.regInd .a) (.reg .b)).opcode (s.memRead t.pc).toNat (readLoc (.reg .b) s).toNat =
      some (some 0x8402, false, none) ∧
    decode (BitVec.ofNat 16 (Reference.mask16 0x8402)) = .ok (.add (.reg .a) (.shortLit 1)) ∧
    exec (.set (.regInd .a) (.reg .b)) s = .next t :=
  ⟨start [] 0x10 0x11 0x8402 0 false, _, rfl, rfl, rfl, by decide, rfl⟩

/-- Both clauses of `load`, at the last length accepted and the first refused. -/
theorem witness_LoadWritesItsRegionOrIsRefused : (0xFFFF#16).toNat + [1#16].length ≤ 65536 ∧ [1#16][0]? = some 1#16 ∧
    65536 < (0xFFFF#16).toNat + [1#16, 2#16].length := by decide

end Sys2Proof.Tests
end

section
/-! PROOFS. Reset (rule R33) and what can change `sp` (rule R27). The first part ties the model's effect of an opcode to the
spec's own `Exec` (rule R141), once for all opcodes with operands. -/

namespace Sys2Proof.Machine

/-! ### Reset -/

@[simp] theorem memRead_reset (addr : Word) : State.reset.memRead addr = 0 := rfl

@[simp] theorem reg_reset (r : Reg) : State.reset.reg r = 0 := by cases r <;> rfl

/-- Settles O6: the reads through the accessors by the reset lemmas, the other three items by definition. -/
theorem resetStateIsAllZero : Obligations.ResetStateIsAllZero :=
  ⟨memRead_reset, reg_reset, rfl, rfl, rfl⟩

/-! ### The effect of an opcode is that of the spec's `Exec` -/

/-- The model's residue and the pseudocode's are the same number (rule R9). -/
theorem toNat_mask16 (v : Int) : (mask16 v).toNat = Reference.mask16 v := by
  simp [mask16, Reference.mask16, BitVec.toNat_ofInt]

/-- The word SHL writes back does not see that the model caps the amount at 16 (rule R190). -/
theorem mask16_shl_capped (x y : Word) :
    mask16 ((x.toNat * 2 ^ shiftAmount y : Nat) : Int) = mask16 ((x.toNat * 2 ^ y.toNat : Nat) : Int) := by
  rw [mask16_ofNat, mask16_ofNat]
  exact BitVec.eq_of_toNat_eq (by simpa [shiftAmount] using shl_capped_mod x.toNat y.toNat)

/-- `Exec` of the pseudocode answers the model's skip and flag, and a value to write back that is masked to the same word. The
values themselves differ for SHL alone, where the model caps the amount. -/
theorem reference_exec_eq {i : Instr} {a b : Operand} (hop : i.operands = some (a, b)) (x y : Word) :
    ∃ wb, Reference.exec i.opcode x.toNat y.toNat = some (wb, (effectOf i x y).skip, (effectOf i x y).ovf) ∧
      wb.map mask16 = (effectOf i x y).wb.map mask16 := by
  cases i with
  | nop _ => cases hop
  | set _ _ => exact ⟨_, rfl, rfl⟩
  | add _ _ => exact ⟨_, rfl, rfl⟩
  | sub _ _ => exact ⟨_, rfl, rfl⟩
  | mul _ _ => exact ⟨_, rfl, rfl⟩
  | div _ _ =>
    refine ⟨_, ?_, rfl⟩
    by_cases hy : y.toNat = 0 <;>
      simp [Reference.exec, Instr.opcode, effectOf, divEffect, quotient, divOverflow, hy]
  | mod _ _ =>
    refine ⟨_, ?_, rfl⟩
    by_cases hy : y.toNat = 0 <;> simp [Reference.exec, Instr.opcode, effectOf, modEffect, remainder, hy]
  | shl _ _ =>
    refine ⟨some ((x.toNat * 2 ^ y.toNat : Nat) : Int), ?_, congrArg some (mask16_shl_capped x y).symm⟩
    simp only [Reference.exec, Instr.opcode, effectOf, shlEffect, shlOverflow, shiftAmount, shl_capped_gt]
  | shr _ _ =>
    refine ⟨_, ?_, rfl⟩
    simp only [Reference.exec, Instr.opcode, effectOf, shrEffect, shrOverflow, shiftAmount,
      shr_capped_div _ _ x.isLt, shr_capped_mod _ _ x.isLt]
  | and _ _ => exact ⟨_, by simp [Reference.exec, Instr.opcode, effectOf, andEffect], rfl⟩
  | bor _ _ => exact ⟨_, by simp [Reference.exec, Instr.opcode, effectOf, borEffect], rfl⟩
  | xor _ _ => exact ⟨_, by simp [Reference.exec, Instr.opcode, effectOf, xorEffect], rfl⟩
  | ife _ _ =>
    exact ⟨_, by simp [Reference.exec, Instr.opcode, effectOf, skipEffect, ifeSkips, BitVec.toNat_inj], rfl⟩
  | ifn _ _ =>
    exact ⟨_, by simp [Reference.exec, Instr.opcode, effectOf, skipEffect, ifnSkips, BitVec.toNat_inj], rfl⟩
  | ifg _ _ => exact ⟨_, rfl, rfl⟩
  | ifb _ _ =>
    exact ⟨_, by simp [Reference.exec, Instr.opcode, effectOf, skipEffect, ifbSkips, ← BitVec.toNat_inj], rfl⟩

/-- The same for an opcode that writes back: `Exec` answers a value, no skip and the model's flag. -/
theorem reference_exec_of_writesBack {i : Instr} {a b : Operand} (hop : i.operands = some (a, b))
    (hw : i.writesBack = true) (x y : Word) :
    ∃ v w, (effectOf i x y).wb = some w ∧ mask16 v = mask16 w ∧
      Reference.exec i.opcode x.toNat y.toNat = some (some v, false, (effectOf i x y).ovf) := by
  obtain ⟨w, hwb⟩ := Option.isSome_iff_exists.mp ((effectOf_wb i x y).trans hw)
  obtain ⟨wb, hexec, hmask⟩ := reference_exec_eq hop x y
  rw [hwb] at hmask
  obtain ⟨v, rfl, hv⟩ := Option.map_eq_some_iff.mp hmask
  exact ⟨v, w, hwb, hv, by rw [hexec, effectOf_skip i x y hw]⟩

/-! ### `sp` through one instruction -/

/-- Completing a cycle leaves `sp`, if nothing is written back or the destination is not SP. -/
theorem complete_sp_of_not_written {e : Effect} {l : Loc} (s : State) (h : e.wb = none ∨ l ≠ .sp) :
    (complete e l s).sp = s.sp := by
  cases hwb : e.wb with
  | none => simp [complete, writeback, hwb]
  | some v =>
    have hl : l ≠ .sp := h.resolve_left (by simp [hwb])
    simp [complete, writeback, hwb, writeLoc_sp l (mask16 v) _ hl]

/-- A value written back to SP is what `sp` holds after the cycle. -/
theorem complete_sp_of_written {e : Effect} {v : Int} (s : State) (h : e.wb = some v) :
    (complete e .sp s).sp = mask16 v := by
  simp [complete, writeback, h, writeLoc]

/-- A well-formed instruction with operands completes its cycle from what both resolutions give. -/
theorem exec_of_wf {i : Instr} {a b : Operand} (hop : i.operands = some (a, b)) (hwf : i.wf = true) (s : State) :
    ∃ la lb s2, resolveBoth a b s = .ok (la, lb, s2) ∧
      exec i s = .next (complete (effectOf i (readLoc la s2) (readLoc lb s2)) la s2) := by
  obtain ⟨ha, hb⟩ : a.wf = true ∧ b.wf = true := by simpa [Instr.wf, hop] using hwf
  obtain ⟨la, lb, s2, hr⟩ := resolveBoth_ok_of_wf ha hb s
  exact ⟨la, lb, s2, hr, by rw [exec_eq_runCycle hop, runCycle_of_resolveBoth hr]⟩

/-- With SP as destination only b's resolution acts, and `sp` is the first value read. -/
theorem resolveBoth_sp {b : Operand} {s s2 : State} {la lb : Loc} (h : resolveBoth .sp b s = .ok (la, lb, s2)) :
    la = .sp ∧ resolve b s = .ok (lb, s2) ∧ readLoc .sp s2 = s.sp + b.spStep := by
  obtain ⟨s1, ha, hb⟩ := resolveBoth_eq_ok.mp h
  cases ha
  obtain ⟨-, -, -, -, hsp⟩ := resolve_next hb
  exact ⟨rfl, hb, hsp⟩

/-- Settles O36: the resolutions add their steps to `sp`, and completing the cycle changes it by a writeback to SP only. -/
theorem spChangesOnlyByStackFormsAndWrites : Obligations.SpChangesOnlyByStackFormsAndWrites := by
  intro i a b s hop hwf
  obtain ⟨la, lb, s2, hr, hexec⟩ := exec_of_wf hop hwf s
  obtain ⟨-, -, -, -, hsp, hla⟩ := resolveBoth_next hr
  refine ⟨_, hexec, ?_, ?_⟩
  · intro h
    have hnot : (effectOf i (readLoc la s2) (readLoc lb s2)).wb = none ∨ la ≠ .sp := by
      rcases h with hw | ha
      · exact .inl (by simpa using (effectOf_wb i _ _).trans hw)
      · exact .inr fun e => ha ((locOf_eq_iff a s).1.mp (hla ▸ e))
    rw [complete_sp_of_not_written s2 hnot, hsp]
  · rintro hw rfl
    obtain ⟨rfl, hb, hread⟩ := resolveBoth_sp hr
    obtain ⟨v, w, hwb, hmask, href⟩ := reference_exec_of_writesBack hop hw (readLoc .sp s2) (readLoc lb s2)
    refine ⟨lb, s2, v, _, hb, hread ▸ href, ?_⟩
    rw [complete_sp_of_written s2 hwb, ← hmask, toNat_mask16]

end Sys2Proof.Machine
end

section
/-! PROOFS. Where the operand words stand (rule R83). -/

namespace Sys2Proof.Machine

/-- The next word after a's resolution is the one `1 + nw(a)` words past the instruction word of the state before it. -/
theorem memRead_next_of_resolve {a : Operand} {s s1 : State} {la : Loc} (h : resolve a s = .ok (la, s1)) :
    s1.memRead (s1.pc + 1) = s.memRead (s.pc + 1 + a.nw) := by
  obtain ⟨hmem, -, -, hpc, -⟩ := resolve_next h
  rw [memRead_of_mem hmem, hpc, add_right_comm, Operand.nw]

/-- The location of an operand that consumes a word, given that word and the registers it is added to. -/
theorem locOf_of_nextWord {s s1 : State} {w : Word} (c : Operand) (hw : s1.memRead (s1.pc + 1) = w)
    (hregs : s1.regs = s.regs) :
    (c = .nextLit → locOf c s1 = .lit w) ∧ (c = .nextInd → locOf c s1 = .mem w) ∧
      ∀ r : Reg, c = .nextPlusReg r → locOf c s1 = .mem (w + s.reg r) := by
  refine ⟨?_, ?_, ?_⟩
  · rintro rfl
    rw [locOf, hw]
  · rintro rfl
    rw [locOf, hw]
  · rintro r rfl
    rw [locOf, hw, reg_of_regs hregs]

/-- Settles O18: a takes its word in `s` itself, b in the state after a's resolution, where only `pc` and `sp` have moved. -/
theorem operandWordsInMemoryOrder : Obligations.OperandWordsInMemoryOrder := by
  intro a b s ha hb
  obtain ⟨la, lb, s2, h⟩ := resolveBoth_ok_of_wf ha hb s
  obtain ⟨s1, h1, h2⟩ := resolveBoth_eq_ok.mp h
  obtain ⟨-, hregs, -⟩ := resolve_next h1
  obtain ⟨alit, aind, aplus⟩ := locOf_of_nextWord (s := s) (s1 := s) a rfl rfl
  obtain ⟨blit, bind, bplus⟩ := locOf_of_nextWord b (memRead_next_of_resolve h1) hregs
  refine ⟨la, lb, s2, h, ?_⟩
  rw [resolve_loc h1, resolve_loc h2]
  exact ⟨alit, aind, aplus, blit, bind, bplus⟩

end Sys2Proof.Machine
end

section
/-! PROOFS. Reading and writing a location (rules R125, R126). -/

namespace Sys2Proof.Machine

@[simp] theorem readLoc_reg (r : Reg) (s : State) : readLoc (.reg r) s = s.reg r := rfl
@[simp] theorem readLoc_mem (addr : Word) (s : State) : readLoc (.mem addr) s = s.memRead addr := rfl
@[simp] theorem readLoc_pc (s : State) : readLoc .pc s = s.pc := rfl
@[simp] theorem readLoc_sp (s : State) : readLoc .sp s = s.sp := rfl
@[simp] theorem readLoc_o (s : State) : readLoc .o s = boolWord s.overflow := rfl
@[simp] theorem readLoc_lit (v : Word) (s : State) : readLoc (.lit v) s = v := rfl

section
variable (v : Word) (s : State)

@[simp] theorem writeLoc_regLoc (r : Reg) : writeLoc (.reg r) v s = s.setReg r v := rfl
@[simp] theorem writeLoc_memLoc (addr : Word) : writeLoc (.mem addr) v s = s.memWrite addr v := rfl
@[simp] theorem writeLoc_pcLoc : writeLoc .pc v s = s.setPc v := rfl
@[simp] theorem writeLoc_spLoc : writeLoc .sp v s = s.setSp v := rfl
@[simp] theorem writeLoc_oLoc : writeLoc .o v s = s.setOverflow (decide (v ≠ 0)) := rfl
@[simp] theorem writeLoc_litLoc (c : Word) : writeLoc (.lit c) v s = s := rfl

/-- `O` stores "nonzero" and reads as 0 or 1 (rule R29). -/
theorem boolWord_nonzero : boolWord (decide (v ≠ 0)) = if v = 0 then 0 else 1 := by
  by_cases h : v = 0 <;> simp [boolWord, h]

/-- A location reads the same after a write to another one. -/
theorem readLoc_writeLoc_other {l l' : Loc} (h : l ≠ l') : readLoc l' (writeLoc l v s) = readLoc l' s := by
  cases l' with
  | reg r => exact writeLoc_reg_other l v s h
  | mem addr => exact writeLoc_memRead_other l v s h
  | pc => exact writeLoc_pc l v s h
  | sp => exact writeLoc_sp l v s h
  | o => exact congrArg boolWord (writeLoc_overflow l v s h)
  | lit c => rfl

end

/-- Settles O19: the read-back by form of the location, the rest by `readLoc_writeLoc_other`. -/
theorem writeLocWritesThatLocationOnly : Obligations.WriteLocWritesThatLocationOnly :=
  ⟨by simp, by simp, by simp, by simp, fun v _ => boolWord_nonzero v, by simp,
    fun _ _ v s h => readLoc_writeLoc_other v s h⟩

end Sys2Proof.Machine
end

section
/-! PROOFS. When an instruction faults and when it completes (rules R123, R234). -/

namespace Sys2Proof.Machine

/-- An ill-formed instruction has operands, and one of them is no value code. -/
theorem operands_of_not_wf {i : Instr} (h : i.wf = false) :
    ∃ a b, i.operands = some (a, b) ∧ (a.wf && b.wf) = false := by
  unfold Instr.wf at h
  split at h
  · cases h
  · next a b hop => exact ⟨a, b, hop, h⟩

theorem exec_fault_of_not_wf {i : Instr} (h : i.wf = false) (s : State) : exec i s = .fault .unknownValueCode := by
  obtain ⟨a, b, hop, hab⟩ := operands_of_not_wf h
  rw [exec_eq_runCycle hop, runCycle_fault hab]

/-- The one instruction without operands is NOP, which only advances (rule R144). -/
theorem exec_of_no_operands {i : Instr} (h : i.operands = none) (s : State) : exec i s = .next s.advance := by
  cases i with
  | nop _ => rfl
  | _ => cases h

theorem exec_next_of_wf {i : Instr} (h : i.wf = true) (s : State) : ∃ t, exec i s = .next t := by
  cases hop : i.operands with
  | none => exact ⟨_, exec_of_no_operands hop s⟩
  | some p =>
    obtain ⟨la, lb, s2, -, hexec⟩ := exec_of_wf (a := p.1) (b := p.2) hop h s
    exact ⟨_, hexec⟩

/-- Settles O13: the value codes are the codes below 64, and the check of well-formedness decides between fault and next state. -/
theorem execFaultsExactlyOutsideTheValueCodes : Obligations.ExecFaultsExactlyOutsideTheValueCodes := by
  refine ⟨fun c s hc => resolve_error_of_not_wf ?_ s, fun i s h => exec_fault_of_not_wf h s,
    fun i s h => exec_next_of_wf h s⟩
  rw [wf_operandOf]
  exact decide_eq_false (by omega)

end Sys2Proof.Machine
end

section
/-! PROOFS. The order of the two resolutions (rule R127), seen through SET and ADD, and `PC` as an operand (rule R118). -/

namespace Sys2Proof.Machine

/-! ### The words SET and ADD write back -/

theorem mask16_toNat (x : Word) : mask16 (x.toNat : Int) = x := by
  rw [mask16_ofNat, BitVec.ofNat_toNat, BitVec.setWidth_eq]

/-- The exact sum masked is the sum of the words (rule R9). -/
theorem mask16_add_toNat (x y : Word) : mask16 (x.toNat + y.toNat : Int) = x + y := by
  rw [← Nat.cast_add, mask16_ofNat, BitVec.ofNat_add, BitVec.ofNat_toNat, BitVec.ofNat_toNat, BitVec.setWidth_eq,
    BitVec.setWidth_eq]

/-- SET writes b's value to a's location and advances. -/
theorem complete_setEffect (x y : Word) (l : Loc) (s : State) :
    complete (setEffect x y) l s = (writeLoc l y s).advance :=
  congrArg (fun w => (writeLoc l w s).advance) (mask16_toNat y)

/-- An instruction with operands completes its cycle on the state after both resolutions. -/
theorem exec_of_resolveBoth {i : Instr} {a b : Operand} {s s2 : State} {la lb : Loc} (hop : i.operands = some (a, b))
    (h : resolveBoth a b s = .ok (la, lb, s2)) :
    exec i s = .next (complete (effectOf i (readLoc la s2) (readLoc lb s2)) la s2) := by
  rw [exec_eq_runCycle hop, runCycle_of_resolveBoth h]

theorem exec_set_of_resolveBoth {a b : Operand} {s s2 : State} {la lb : Loc} (h : resolveBoth a b s = .ok (la, lb, s2)) :
    exec (.set a b) s = .next (writeLoc la (readLoc lb s2) s2).advance := by
  rw [exec_of_resolveBoth rfl h]
  exact congrArg _ (complete_setEffect (readLoc la s2) (readLoc lb s2) la s2)

theorem exec_set_of_resolve {a b : Operand} {s s1 s2 : State} {la lb : Loc} (ha : resolve a s = .ok (la, s1))
    (hb : resolve b s1 = .ok (lb, s2)) : exec (.set a b) s = .next (writeLoc la (readLoc lb s2) s2).advance :=
  exec_set_of_resolveBoth (resolveBoth_eq_ok.mpr ⟨s1, ha, hb⟩)

/-! ### Three cases where the order shows -/

/-- a = SP is read after b's POP. -/
theorem exec_add_sp_pop_sp (s : State) : ∃ t, exec (.add .sp .pop) s = .next t ∧ t.sp = s.sp + 1 + s.memRead s.sp :=
  ⟨_, exec_of_resolveBoth rfl rfl, (complete_sp_of_written _ rfl).trans (mask16_add_toNat (s.sp + 1) (s.memRead s.sp))⟩

/-- b = SP is read after a's PUSH. -/
theorem exec_set_push_sp_memRead (s : State) :
    ∃ t, exec (.set .push .sp) s = .next t ∧ t.memRead (s.sp - 1) = s.sp - 1 :=
  ⟨_, exec_set_of_resolve rfl rfl, by simp⟩

/-- b's POP starts from the `sp` that a's POP leaves. -/
theorem exec_set_pop_pop (s : State) : ∃ t, exec (.set .pop .pop) s = .next t ∧
    t.memRead s.sp = s.memRead (s.sp + 1) ∧ t.sp = s.sp + 2 :=
  ⟨_, exec_set_of_resolve rfl rfl, by simp, by simp [add_assoc]⟩

/-- Settles O17: SET runs on the state after both resolutions, and in each case the two locations are computed in turn. -/
theorem operandAIsResolvedBeforeB : Obligations.OperandAIsResolvedBeforeB :=
  ⟨fun _ _ _ s1 _ _ _ ha hb => ⟨resolveBoth_eq_ok.mpr ⟨s1, ha, hb⟩, exec_set_of_resolve ha hb⟩,
    exec_add_sp_pop_sp, exec_set_push_sp_memRead, exec_set_pop_pop⟩

/-! ### `PC` as an operand -/

/-- After both resolutions `pc` is at the last consumed word (rule R118). -/
theorem pc_of_resolveBoth {a b : Operand} {s s2 : State} {la lb : Loc} (h : resolveBoth a b s = .ok (la, lb, s2)) :
    s2.pc = s.pc + a.nw + b.nw := by
  obtain ⟨-, -, -, hpc, -⟩ := resolveBoth_next h
  exact hpc

/-- Settles O33: both clauses are SET on the state after both resolutions, with `PC` as the location read or written. -/
theorem pcReadsTheLastConsumedWord : Obligations.PcReadsTheLastConsumedWord := by
  intro a b s ha hb
  obtain ⟨la, lb, s2, h⟩ := resolveBoth_ok_of_wf ha hb s
  have hpc := pc_of_resolveBoth h
  refine ⟨la, lb, s2, h, hpc, ?_, ?_⟩
  · rintro rfl
    obtain ⟨s1, -, hb'⟩ := resolveBoth_eq_ok.mp h
    cases hb'
    have hread : readLoc .pc s2 = s.pc + a.nw := by simpa [Operand.nw, Operand.nextWords] using hpc
    rw [exec_set_of_resolveBoth h, hread]
  · rintro rfl
    obtain ⟨-, -, -, -, -, rfl⟩ := resolveBoth_next h
    -- The write assigns `pc`, then the final advance adds 1.
    exact exec_set_of_resolveBoth h

end Sys2Proof.Machine
end

section
/-! PROOFS. NOP and the words that decode to it (rules R88, R144). -/

namespace Sys2Proof.Machine

/-- The instruction an opcode field of 0 gives, whatever the operand fields are (rule R88). -/
theorem decode_of_opField_eq_zero {w : Word} (h : opField w = 0) :
    decode w = .ok (.nop (BitVec.ofNat 12 (bField w * 64 + aField w))) := by
  rw [decode, h, instrOf]

/-- One step under a decoder is the meaning of the instruction decoded from the word at `pc` (rule R141). -/
theorem stepWith_of_decoded {dec : Word → Except DecodeError Instr} {s : State} {i : Instr}
    (h : dec s.fetch = .ok i) : stepWith dec s = exec i s := by
  rw [stepWith, h]

/-- Settles O30: NOP has no operands, and every word whose opcode field is 0 decodes to it. -/
theorem nopOnlyAdvancesPc : Obligations.NopOnlyAdvancesPc := by
  have hnop (ignored : BitVec 12) (s : State) : exec (.nop ignored) s = .next s.advance := exec_of_no_operands rfl s
  refine ⟨hnop, fun s hop => ?_⟩
  have hdec : decode s.fetch = .ok (.nop _) := decode_of_opField_eq_zero hop
  exact (stepWith_of_decoded hdec).trans (hnop _ s)

end Sys2Proof.Machine
end

section
/-! PROOFS. SET and the arithmetic opcodes that write `O`: ADD, SUB, MUL, DIV (rules R170 to R174). -/

namespace Sys2Proof.Machine

/-! ### A cycle that writes a word and the flag -/

/-- An opcode whose effect is a value `v` and a flag `c`: the flag is stored, then the residue `w` of `v` goes to a's location,
then `pc` advances once (rule R147). -/
theorem exec_of_flagEffect {i : Instr} {a b : Operand} {s s2 : State} {la lb : Loc} {v : Int} {w : Word} {c : Bool}
    (hop : i.operands = some (a, b)) (h : resolveBoth a b s = .ok (la, lb, s2))
    (heff : effectOf i (readLoc la s2) (readLoc lb s2) = { wb := some v, skip := false, ovf := some c })
    (hw : mask16 v = w) : exec i s = .next (writeLoc la w { s2 with overflow := c }).advance := by
  subst hw
  rw [exec_of_resolveBoth hop h, heff]
  rfl

/-! ### The words and flags of the opcodes -/

/-- The word of a natural number is its residue (rule R9). -/
theorem mask16_natCast_mod (n : Nat) : mask16 (n : Int) = BitVec.ofNat 16 (n % 65536) := by
  rw [mask16_ofNat]
  exact BitVec.eq_of_toNat_eq (by simp)

/-- The residue of a difference of words, with 65536 added on a borrow (rule R172). -/
theorem mask16_sub_toNat (x y : Word) : mask16 (x.toNat - y.toNat : Int) =
    BitVec.ofNat 16 (if x.toNat < y.toNat then x.toNat + 65536 - y.toNat else x.toNat - y.toNat) := by
  apply BitVec.eq_of_toNat_eq
  rw [toNat_mask16, Reference.mask16, BitVec.toNat_ofNat]
  have hx := x.isLt
  have hy := y.isLt
  split <;> omega

/-- A negative difference is a borrow (rule R172). -/
theorem subEffect_eq (x y : Word) : subEffect x y =
    { wb := some (x.toNat - y.toNat : Int), skip := false, ovf := some (decide (x.toNat < y.toNat)) } := by
  have hlt : (x.toNat : Int) - y.toNat < 0 ↔ x.toNat < y.toNat := by omega
  simp only [subEffect, subOverflow, hlt]

theorem divEffect_of_zero (x : Word) {y : Word} (h : y.toNat = 0) :
    divEffect x y = { wb := some 0, skip := false, ovf := some true } := by
  simp [divEffect, quotient, divOverflow, h]

/-- By a nonzero divisor, DIV gives the quotient of division with remainder and no flag (rule R174). -/
theorem divEffect_of_remainder {x y : Word} {q r : Nat} (hx : x.toNat = q * y.toNat + r) (hr : r < y.toNat) :
    divEffect x y = { wb := some q, skip := false, ovf := some false } := by
  have hy : 0 < y.toNat := by omega
  have hq : x.toNat / y.toNat = q :=
    ((Nat.div_mod_unique hy).mpr ⟨by rw [hx, Nat.mul_comm, Nat.add_comm], hr⟩).1
  simp [divEffect, quotient, divOverflow, hq, hy.ne']

/-! ### The statements -/

/-- Settles O20: SET on the state after both resolutions, which every pair of value codes has. -/
theorem setStoresB : Obligations.SetStoresB := by
  intro a b s ha hb
  obtain ⟨la, lb, s2, h⟩ := resolveBoth_ok_of_wf ha hb s
  exact ⟨la, lb, s2, h, exec_set_of_resolveBoth h⟩

/-- Settles O21: the sum of the words is a natural number, and the model's flag is the stated one. -/
theorem addStoresSumAndCarry : Obligations.AddStoresSumAndCarry := by
  intro a b s ha hb _
  obtain ⟨la, lb, s2, h⟩ := resolveBoth_ok_of_wf ha hb s
  exact ⟨la, lb, s2, h, exec_of_flagEffect rfl h rfl (mask16_natCast_mod _)⟩

/-- Settles O22: the residue and the borrow by `mask16_sub_toNat` and `subEffect_eq`. -/
theorem subStoresDifferenceAndBorrow : Obligations.SubStoresDifferenceAndBorrow := by
  intro a b s ha hb _
  obtain ⟨la, lb, s2, h⟩ := resolveBoth_ok_of_wf ha hb s
  exact ⟨la, lb, s2, h, exec_of_flagEffect rfl h (subEffect_eq _ _) (mask16_sub_toNat _ _)⟩

/-- Settles O23: the product of the words is a natural number, and the model's flag is the stated one. -/
theorem mulStoresLowProduct : Obligations.MulStoresLowProduct := by
  intro a b s ha hb _
  obtain ⟨la, lb, s2, h⟩ := resolveBoth_ok_of_wf ha hb s
  exact ⟨la, lb, s2, h, exec_of_flagEffect rfl h rfl (mask16_natCast_mod _)⟩

/-- Settles O24: both clauses run the same cycle, with the effect of the zero and of the nonzero divisor. -/
theorem divStoresQuotientAndNeverFaults : Obligations.DivStoresQuotientAndNeverFaults := by
  intro a b s ha hb _
  obtain ⟨la, lb, s2, h⟩ := resolveBoth_ok_of_wf ha hb s
  refine ⟨la, lb, s2, h, ?_, ?_⟩
  · intro hy
    exact exec_of_flagEffect rfl h (divEffect_of_zero _ hy) (mask16_ofNat 0)
  · intro q r hx hr
    exact exec_of_flagEffect rfl h (divEffect_of_remainder hx hr) (mask16_ofNat q)

end Sys2Proof.Machine
end

section
/-! PROOFS. The logic opcodes AND, BOR, XOR (rules R192 to R194, R196). -/

namespace Sys2Proof.Machine

/-! ### A cycle that writes a word and leaves the flag -/

/-- An opcode whose effect is a word and no flag: the word is its own residue (rule R196), so it goes to a's location
unchanged, and `O` is written only where a's location is `O`. -/
theorem exec_of_wordEffect {i : Instr} {a b : Operand} {s s2 : State} {la lb : Loc} {w : Word}
    (hop : i.operands = some (a, b)) (h : resolveBoth a b s = .ok (la, lb, s2))
    (heff : effectOf i (readLoc la s2) (readLoc lb s2) = { wb := some w.toNat, skip := false, ovf := none }) :
    exec i s = .next (writeLoc la w s2).advance := by
  rw [exec_of_resolveBoth hop h, heff]
  exact congrArg (fun v => Host.Outcome.next (writeLoc la v s2).advance) (mask16_toNat w)

/-- Settles O28: the three cycles write the words of the bitwise operations, whose bit k is read off by the
library's `getLsbD` lemmas. -/
theorem logicWorksBitByBit : Obligations.LogicWorksBitByBit := by
  intro a b s ha hb
  obtain ⟨la, lb, s2, h⟩ := resolveBoth_ok_of_wf ha hb s
  refine ⟨la, lb, s2, h, readLoc la s2 &&& readLoc lb s2, readLoc la s2 ||| readLoc lb s2,
    readLoc la s2 ^^^ readLoc lb s2, ?_, ?_, ?_, ?_⟩
  · exact exec_of_wordEffect rfl h rfl
  · exact exec_of_wordEffect rfl h rfl
  · exact exec_of_wordEffect rfl h rfl
  · intro k _
    refine ⟨?_, ?_, ?_⟩
    · rw [BitVec.getLsbD_and, Bool.and_eq_true]
    · rw [BitVec.getLsbD_or, Bool.or_eq_true]
    · rw [BitVec.getLsbD_xor, bne_iff_ne]

end Sys2Proof.Machine
end

section
/-! PROOFS. Decoder and encoder (rules R81, R84, R86), and the step as the meaning of the decoded instruction (rule R141). -/

namespace Sys2Proof

/-! ### The opcode map and the value-code map, both ways -/

/-- The row of an instruction's opcode, with the operands of its codes, is the instruction itself. -/
theorem instrOf_codes (i : Instr) : instrOf i.opcode i.codeA i.codeB = some i := by
  cases i with
  | nop ignored =>
    have hbits : ignored.toNat / 64 * 64 + ignored.toNat % 64 = ignored.toNat := by omega
    simp [instrOf, Instr.opcode, Instr.codeA, Instr.codeB, hbits]
  | _ => simp [instrOf, Instr.opcode, Instr.codeA, Instr.codeB, operandOf_code]

/-- Three numbers that fit the fields are the opcode and the codes of a well-formed instruction (rule R89). -/
theorem instrOf_fields {op ca cb : Nat} (hop : op < 16) (ha : ca < 64) (hb : cb < 64) :
    ∃ i, instrOf op ca cb = some i ∧ i.wf = true ∧ i.opcode = op ∧ i.codeA = ca ∧ i.codeB = cb := by
  have hwf : ((operandOf ca).wf && (operandOf cb).wf) = true := by simp [wf_operandOf, ha, hb]
  obtain rfl | hpos := Nat.eq_zero_or_pos op
  · -- NOP keeps the two operand fields as its ignored bits.
    have hbits : (BitVec.ofNat 12 (cb * 64 + ca)).toNat = cb * 64 + ca := Nat.mod_eq_of_lt (by omega)
    refine ⟨_, rfl, rfl, rfl, ?_, ?_⟩
    · rw [Instr.codeA, hbits]
      omega
    · rw [Instr.codeB, hbits]
      omega
  · interval_cases op <;> exact ⟨_, rfl, hwf, rfl, code_operandOf ca, code_operandOf cb⟩

/-- The encoded word holds the opcode and the two codes in its fields (the per-opcode laws, gathered). -/
theorem fields_encode {i : Instr} (h : i.wf = true) :
    opField (encode i) = i.opcode ∧ aField (encode i) = i.codeA ∧ bField (encode i) = i.codeB := by
  cases hop : i.operands with
  | none =>
    cases i with
    | nop ignored => exact Laws.EncodedFields.nop ignored h
    | _ => cases hop
  | some p =>
    refine Laws.EncodedFields.of_operands (a := p.1) (b := p.2) hop ?_ ?_ h <;> cases i <;> cases hop <;> rfl

theorem decode_of_instrOf {w : Word} {i : Instr} (h : instrOf (opField w) (aField w) (bField w) = some i) :
    decode w = .ok i := by
  rw [decode, h]

theorem decode_encode {i : Instr} (h : i.wf = true) : decode (encode i) = .ok i := by
  obtain ⟨hop, ha, hb⟩ := fields_encode h
  exact decode_of_instrOf (by rw [hop, ha, hb, instrOf_codes])

/-- Every word decodes, to a well-formed instruction with the word's own fields. -/
theorem decode_fields (w : Word) : ∃ i, decode w = .ok i ∧ i.wf = true ∧ i.opcode = opField w ∧ i.codeA = aField w ∧
    i.codeB = bField w := by
  have hop : opField w < 16 := Nat.mod_lt _ (by decide)
  have ha : aField w < 64 := Nat.mod_lt _ (by decide)
  have hb : bField w < 64 := by have := w.isLt; simp only [bField]; omega
  obtain ⟨i, hi, hrest⟩ := instrOf_fields hop ha hb
  exact ⟨i, decode_of_instrOf hi, hrest⟩

/-- Decoding loses no bit of the word. -/
theorem encode_of_decode {w : Word} {i : Instr} (h : decode w = .ok i) : encode i = w := by
  obtain ⟨j, hj, -, hop, ha, hb⟩ := decode_fields w
  obtain rfl : i = j := Except.ok.inj (h.symm.trans hj)
  rw [encode, hop, ha, hb, word_of_fields, BitVec.ofNat_toNat, BitVec.setWidth_eq]

/-- Settles O1: the encoded word has the instruction's fields, and the two maps take them back. -/
theorem decodeOfEncodeIsTheInstruction : Obligations.DecodeOfEncodeIsTheInstruction :=
  fun _ h => decode_encode h

/-- Settles O2: existence by the fields of the word, uniqueness because encoding gives the word back. -/
theorem wordsAndTriplesCorrespond : Obligations.WordsAndTriplesCorrespond := by
  constructor
  · intro w
    obtain ⟨i, hdec, hwf, hop, ha, hb⟩ := decode_fields w
    exact ⟨i, hdec, hwf, hop, ha, hb, encode_of_decode hdec⟩
  · intro op a b hop ha hb
    refine ⟨BitVec.ofNat 16 (b * 1024 + a * 16 + op), ?_, ?_⟩
    · rw [BitVec.toNat_ofNat]
      exact Nat.mod_eq_of_lt (by omega)
    · rintro w' i hdec rfl rfl rfl
      exact (encode_of_decode hdec).symm

/-- The registers in the order of rule R21 stand at their indices. -/
theorem index_of_getElem? {k : Nat} {r : Reg} (h : ([.a, .b, .c, .x, .y, .z, .i, .j] : List Reg)[k]? = some r) :
    k = r.index := by
  obtain ⟨hk, hr⟩ := List.getElem?_eq_some_iff.mp h
  simp only [List.length_cons, List.length_nil] at hk
  interval_cases k <;> cases hr <;> rfl

/-- Settles O3: the value-code rows say that each operand is that of its code, the opcode rows follow from the three fields of
the word. -/
theorem opcodeMapByNumber : Obligations.OpcodeMapByNumber := by
  refine ⟨?_, operandOf_code .pop, operandOf_code .peek, operandOf_code .push, operandOf_code .sp, operandOf_code .pc,
    operandOf_code .o, operandOf_code .nextInd, operandOf_code .nextLit, fun n _ => operandOf_code (.shortLit n), ?_⟩
  · intro k r h
    obtain rfl := index_of_getElem? h
    exact ⟨operandOf_code (.reg r), operandOf_code (.regInd r), operandOf_code (.nextPlusReg r)⟩
  · intro ca cb ha hb
    have hrow (op : Nat) (i : Instr) (hop : op < 16) (hi : instrOf op ca cb = some i) :
        decode (BitVec.ofNat 16 (cb * 1024 + ca * 16 + op)) = .ok i := by
      obtain ⟨ho, ha', hb'⟩ := fields_of_word hop ha hb
      exact decode_of_instrOf (by rw [ho, ha', hb', hi])
    refine ⟨hrow 0 _ ?_ rfl, hrow 1 _ ?_ rfl, hrow 2 _ ?_ rfl, hrow 3 _ ?_ rfl, hrow 4 _ ?_ rfl, hrow 5 _ ?_ rfl,
      hrow 6 _ ?_ rfl, hrow 7 _ ?_ rfl, hrow 8 _ ?_ rfl, hrow 9 _ ?_ rfl, hrow 10 _ ?_ rfl, hrow 11 _ ?_ rfl,
      hrow 12 _ ?_ rfl, hrow 13 _ ?_ rfl, hrow 14 _ ?_ rfl, hrow 15 _ ?_ rfl⟩ <;> decide

/-- Settles O4: ten closed words, each decoded by computation. -/
theorem specWordsDecode : Obligations.SpecWordsDecode := by
  unfold Obligations.SpecWordsDecode
  decide

end Sys2Proof

namespace Sys2Proof.Machine

/-! ### The step as the meaning of a well-formed instruction -/

theorem step_of_decoded {s : State} {i : Instr} (h : decode (s.memRead s.pc) = .ok i) : step s = exec i s :=
  stepWith_of_decoded h

/-- Every step runs a well-formed instruction: no word encodes another one (rule R234). -/
theorem step_eq_exec_of_wf (s : State) : ∃ i, i.wf = true ∧ step s = exec i s := by
  obtain ⟨i, hdec, hwf, -⟩ := decode_fields (s.memRead s.pc)
  exact ⟨i, hwf, step_of_decoded hdec⟩

theorem step_next (s : State) : ∃ t, step s = .next t := by
  obtain ⟨i, hwf, hstep⟩ := step_eq_exec_of_wf s
  rw [hstep]
  exact exec_next_of_wf hwf s

/-- Settles O10: the step under the model's own decoder. -/
theorem stepRunsTheDecodedInstruction : Obligations.StepRunsTheDecodedInstruction :=
  fun _ _ h => step_of_decoded h

/-- Settles O8: the step is an instruction, and every instruction keeps the canonical form. -/
theorem stepKeepsMemoryCanonical : Obligations.StepKeepsMemoryCanonical := by
  intro s t hs h
  obtain ⟨i, -, hstep⟩ := step_eq_exec_of_wf s
  exact exec_keeps_wf hs (hstep ▸ h)

/-- Settles O7: no cell is listed after reset. -/
theorem resetMeetsTheInvariant : Obligations.ResetMeetsTheInvariant := rfl

/-- Settles O12: the decoded instruction is well-formed, and well-formed instructions complete. -/
theorem stepAlwaysAnswersNext : Obligations.StepAlwaysAnswersNext := step_next

/-- Settles O14: under a decoder that rejects the word the step faults by definition; the model's own always answers a next
state. -/
theorem unknownOpcodeLeavesTheState : Obligations.UnknownOpcodeLeavesTheState := by
  constructor
  · intro dec s h
    have hfault : stepWith dec s = .fault .unknownOpcode := by rw [stepWith, State.fetch, h, raise]
    exact ⟨hfault, by rw [hostStepWith, hfault]⟩
  · intro s
    obtain ⟨t, ht⟩ := step_next s
    refine ⟨t, ?_⟩
    rw [hostStep, hostStepWith, ← step, ht]

end Sys2Proof.Machine
end

section
/-! PROOFS. Resolution by value code (rules R86, R110): the operand of each range of codes, then its resolution. -/

namespace Sys2Proof

theorem operandOf_of_le_7 {c : Nat} (h : c ≤ 7) : operandOf c = .reg (regOf c) :=
  if_pos (by omega)

/-- The register of a code is that of its distance from the start of its range, which is a multiple of 8 (rule R86). -/
theorem regOf_sub_mul {c : Nat} (k : Nat) (h : 8 * k ≤ c) : regOf (c - 8 * k) = regOf c := by
  have hmod : (c - 8 * k) % 8 = c % 8 := by omega
  rw [regOf, regOf, hmod]

theorem operandOf_of_8_to_15 {c : Nat} (h : 8 ≤ c) (h' : c ≤ 15) : operandOf c = .regInd (regOf (c - 8)) := by
  rw [regOf_sub_mul 1 h]
  simp (disch := omega) only [operandOf, if_neg, if_pos]

theorem operandOf_of_16_to_23 {c : Nat} (h : 16 ≤ c) (h' : c ≤ 23) : operandOf c = .nextPlusReg (regOf (c - 16)) := by
  rw [regOf_sub_mul 2 h]
  simp (disch := omega) only [operandOf, if_neg, if_pos]

theorem operandOf_of_32_le {c : Nat} (h : 32 ≤ c) : operandOf c = .shortLit (c - 32) := by
  simp (disch := omega) only [operandOf, if_neg]

end Sys2Proof

namespace Sys2Proof.Machine

/-- Settles O16: each range of codes has its operand, whose resolution is an equation of `resolve`. -/
theorem resolveByValueCode : Obligations.ResolveByValueCode := by
  intro s
  refine ⟨rfl, fun c h => ?_, fun c h h' => ?_, fun c h h' => ?_, rfl, rfl, rfl, rfl, rfl, rfl, rfl, rfl,
    fun c h h' => ?_, fun c h => ?_⟩
  · rw [operandOf_of_le_7 h, resolve]
  · rw [operandOf_of_8_to_15 h h', resolve]
  · rw [operandOf_of_16_to_23 h h']
    rfl
  · rw [operandOf_of_32_le h, resolve, if_pos (by omega)]
  · exact execFaultsExactlyOutsideTheValueCodes.1 c s h

end Sys2Proof.Machine
end

section
/-! PROOFS. One instruction in terms of the spec's own `Exec` (rule R141): the shared form of the statements that name the
reference. -/

namespace Sys2Proof.Machine

/-- The writeback sees the masked value only (rule R147). -/
theorem writeback_congr {wb wb' : Option Int} (h : wb.map mask16 = wb'.map mask16) (l : Loc) (s : State) :
    writeback wb l s = writeback wb' l s := by
  cases wb with
  | none => cases wb' with
    | none => rfl
    | some v' => cases h
  | some v => cases wb' with
    | none => cases h
    | some v' => simp only [writeback, Option.some.inj h]

/-- Whatever `Exec` answers for the two values read is what the cycle completes with: the flag, the writeback, the advance. -/
theorem exec_of_reference {i : Instr} {a b : Operand} {s s2 : State} {la lb : Loc} {wb : Option Int} {skip : Bool}
    {ovf : Option Bool} (hop : i.operands = some (a, b)) (hr : resolveBoth a b s = .ok (la, lb, s2))
    (href : Reference.exec i.opcode (readLoc la s2).toNat (readLoc lb s2).toNat = some (wb, skip, ovf)) :
    exec i s = .next (finalAdvance skip (writeback wb la (updateFlag ovf s2))) := by
  obtain ⟨wb', href', hmask⟩ := reference_exec_eq hop (readLoc la s2) (readLoc lb s2)
  obtain ⟨rfl, rfl, rfl⟩ : wb' = wb ∧ _ = skip ∧ _ = ovf := by simpa [href'] using href
  rw [exec_of_resolveBoth hop hr, complete, writeback_congr hmask]

/-- An opcode that writes back: `Exec` answers a value and no skip, and the masked value goes to a's location after the flag
update and before the one advance (rules R147, R148). -/
theorem exec_of_writesBack {i : Instr} {a b : Operand} {s s2 : State} {la lb : Loc} (hop : i.operands = some (a, b))
    (hw : i.writesBack = true) (hr : resolveBoth a b s = .ok (la, lb, s2)) :
    ∃ v ovf, Reference.exec i.opcode (readLoc la s2).toNat (readLoc lb s2).toNat = some (some v, false, ovf) ∧
      exec i s = .next (writeLoc la (mask16 v) (updateFlag ovf s2)).advance := by
  obtain ⟨v, -, -, -, href⟩ := reference_exec_of_writesBack hop hw (readLoc la s2) (readLoc lb s2)
  exact ⟨v, _, href, exec_of_reference hop hr href⟩

end Sys2Proof.Machine
end

section
/-! PROOFS. The simulation of the model by the spec's pseudocode over the integers (rule R141), one commuting lemma for each
operation, under the reading `Reference.ofState` of a state. -/

namespace Sys2Proof.Reference

open Machine (State Loc)

/-- What a location of the model is in the pseudocode (rule R11). -/
def ofLoc : Loc → RefLoc
  | .reg r => .reg r.index
  | .mem addr => .mem addr.toNat
  | .pc => .pcLoc
  | .sp => .spLoc
  | .o => .oLoc
  | .lit v => .lit v.toNat

/-! ### Reading the state -/

@[simp] theorem ofState_memory_toNat (s : State) (addr : Word) : (ofState s).memory addr.toNat = (s.memRead addr).toNat :=
  if_pos addr.isLt

@[simp] theorem ofState_x_index (s : State) (r : Reg) : (ofState s).x r.index = (s.reg r).toNat := by
  simp [ofState, r.index_lt, r.regOf_index]

@[simp] theorem ofState_pc (s : State) : (ofState s).pc = s.pc.toNat := rfl
@[simp] theorem ofState_sp (s : State) : (ofState s).sp = s.sp.toNat := rfl
@[simp] theorem ofState_O (s : State) : (ofState s).O = s.overflow := rfl

theorem readLoc_ofState (l : Loc) (s : State) : readLoc (ofLoc l) (ofState s) = (Machine.readLoc l s).toNat := by
  cases l with
  | reg r => exact ofState_x_index s r
  | mem addr => exact ofState_memory_toNat s addr
  | o => cases h : s.overflow <;> simp [readLoc, ofLoc, Machine.boolWord, h]
  | _ => rfl

/-! ### Writing it -/

theorem ofState_setReg (s : State) (r : Reg) (v : Word) :
    ofState (s.setReg r v) = { ofState s with x := fun j => if j = r.index then v.toNat else (ofState s).x j } := by
  simp only [ofState, RefState.mk.injEq, true_and, Machine.setReg_mem, Machine.setReg_pc, Machine.setReg_sp,
    Machine.setReg_overflow, and_true]
  funext j
  by_cases hj : j < 8
  · have hidx : j = r.index ↔ r = regOf j := by
      constructor
      · rintro rfl
        exact r.regOf_index.symm
      · rintro rfl
        rw [index_regOf, Nat.mod_eq_of_lt hj]
    simp only [hj, if_true, hidx, State.reg, Machine.setReg_regs, Machine.Regs.read_write]
    split <;> rfl
  · have hne : j ≠ r.index := fun e => hj (e ▸ r.index_lt)
    simp [hj, hne]

theorem ofState_memWrite (s : State) (addr v : Word) : ofState (s.memWrite addr v) =
    { ofState s with memory := fun n => if n = addr.toNat then v.toNat else (ofState s).memory n } := by
  simp only [ofState, RefState.mk.injEq, Machine.memWrite_mem, Machine.memWrite_pc, Machine.memWrite_sp,
    Machine.memWrite_overflow, and_true, State.reg, Machine.memWrite_regs]
  funext n
  by_cases hn : n = addr.toNat
  · subst hn
    simp [addr.isLt]
  · simp [hn, Machine.Memory.read_write_other _ _ _ _ hn]

theorem writeLoc_ofState (l : Loc) (v : Word) (s : State) :
    writeLoc (ofLoc l) v.toNat (ofState s) = ofState (Machine.writeLoc l v s) := by
  cases l with
  | reg r => exact (ofState_setReg s r v).symm
  | mem addr => exact (ofState_memWrite s addr v).symm
  | o =>
    have hne : (v.toNat != 0) = decide (v ≠ 0) := by simp [bne, ← BitVec.toNat_inj, beq_eq_decide]
    simp [writeLoc, ofLoc, hne, ofState, State.reg]
  | _ => rfl

/-! ### Moving `pc` and `sp` -/

theorem advance_ofState (s : State) : advance (ofState s) = ofState s.advance := by
  simp [advance, ofState, State.reg, BitVec.toNat_add]

theorem nextWord_ofState (s : State) :
    nextWord (ofState s) = ((s.memRead (s.pc + 1)).toNat, ofState s.advance) := by
  have hpc : ((ofState s).pc + 1) % 65536 = (s.pc + 1).toNat := by simp [BitVec.toNat_add]
  rw [← advance_ofState, nextWord, advance, hpc, ofState_memory_toNat]

/-- The pseudocode's modular decrement is the word's (rule R116). -/
theorem toNat_sub_one (v : Word) : (((v.toNat : Int) - 1) % 65536).toNat = (v - 1).toNat := by
  bv_omega

/-- Resolution commutes with the reading of states, on every operand (rule R110). -/
theorem resolve_ofState {c : Operand} {s s1 : State} {l : Loc} (h : Machine.resolve c s = .ok (l, s1)) :
    resolve c.code (ofState s) = some (ofLoc l, ofState s1) := by
  cases c with
  | reg r =>
    cases h
    exact if_pos (Nat.le_of_lt_succ r.index_lt)
  | regInd r =>
    cases h
    have hr := r.index_lt
    simp (disch := omega) [resolve, Operand.code, if_pos, if_neg, ofLoc]
  | nextPlusReg r =>
    cases h
    have hr := r.index_lt
    simp (disch := omega) [resolve, Operand.code, if_pos, if_neg, ofLoc, nextWord_ofState, BitVec.toNat_add]
  | pop =>
    cases h
    simp [resolve, Operand.code, ofLoc, ofState, State.reg, BitVec.toNat_add]
  | push =>
    cases h
    simp [resolve, Operand.code, ofLoc, ofState, State.reg, toNat_sub_one]
  | nextInd =>
    cases h
    simp [resolve, Operand.code, ofLoc, nextWord_ofState]
  | nextLit =>
    cases h
    simp [resolve, Operand.code, ofLoc, nextWord_ofState]
  | shortLit n =>
    have hn : n < 32 := by simpa [Operand.wf] using Machine.wf_of_resolve_ok h
    obtain ⟨rfl, rfl⟩ : Loc.lit (BitVec.ofNat 16 n) = l ∧ s = s1 := by simpa [Machine.resolve, hn] using h
    have hlit : (BitVec.ofNat 16 n).toNat = n := Nat.mod_eq_of_lt (by omega)
    simp (disch := omega) only [resolve, Operand.code, if_pos, if_neg, ofLoc, hlit, Nat.add_sub_cancel_left]
  | _ =>
    cases h
    rfl

/-! ### The cycle -/

/-- An instruction with operands has an opcode from 1 to 15, and its codes are those of its operands. -/
theorem codes_of_operands {i : Instr} {a b : Operand} (hop : i.operands = some (a, b)) :
    i.opcode ≠ 0 ∧ i.opcode ≤ 15 ∧ i.codeA = a.code ∧ i.codeB = b.code := by
  cases i with
  | nop _ => cases hop
  | _ => cases hop; exact ⟨by simp [Instr.opcode], by simp [Instr.opcode], rfl, rfl⟩

theorem opcode_of_no_operands {i : Instr} (hop : i.operands = none) : i.opcode = 0 := by
  cases i with
  | nop _ => rfl
  | _ => cases hop

/-- The pseudocode cuts out of the fetched word the opcode and the codes of the decoded instruction (rule R81). -/
theorem fields_ofState {s : State} {i : Instr} (hdec : decode (s.memRead s.pc) = .ok i) :
    (ofState s).memory (ofState s).pc % 16 = i.opcode ∧ (ofState s).memory (ofState s).pc / 16 % 64 = i.codeA ∧
      (ofState s).memory (ofState s).pc / 1024 = i.codeB := by
  obtain ⟨j, hj, -, hop, ha, hb⟩ := decode_fields (s.memRead s.pc)
  obtain rfl : i = j := Except.ok.inj (hdec.symm.trans hj)
  rw [ofState_pc, ofState_memory_toNat]
  exact ⟨hop.symm, ha.symm, hb.symm⟩

/-- A word of opcode 0 advances `pc` and does nothing else (rule R144). -/
theorem step_of_no_operands {s : State} {i : Instr} (hdec : decode (s.memRead s.pc) = .ok i)
    (hop : i.operands = none) : step (ofState s) = .ok (ofState s.advance) := by
  obtain ⟨hw, -⟩ := fields_ofState hdec
  rw [step, hw, opcode_of_no_operands hop, if_pos rfl, advance_ofState]

/-- The pseudocode's step on an instruction with operands, given what `Exec` answers for the two values read: the flag, the
masked writeback and the advances of the model's own cycle. -/
theorem step_of_operands {i : Instr} {a b : Operand} {s s2 : State} {la lb : Loc} {wb : Option Int} {skip : Bool}
    {ovf : Option Bool} (hdec : decode (s.memRead s.pc) = .ok i) (hop : i.operands = some (a, b))
    (hr : Machine.resolveBoth a b s = .ok (la, lb, s2))
    (href : exec i.opcode (Machine.readLoc la s2).toNat (Machine.readLoc lb s2).toNat = some (wb, skip, ovf)) :
    step (ofState s) =
      .ok (ofState (Machine.finalAdvance skip (Machine.writeback wb la (Machine.updateFlag ovf s2)))) := by
  obtain ⟨s1, ha, hb⟩ := Machine.resolveBoth_eq_ok.mp hr
  obtain ⟨hw, hwa, hwb⟩ := fields_ofState hdec
  obtain ⟨hne, hle, hca, hcb⟩ := codes_of_operands hop
  have hflag (c : Bool) : RefState.mk (ofState s2).memory (ofState s2).x (ofState s2).pc (ofState s2).sp c =
      ofState (s2.setOverflow c) := rfl
  have hwrite (v : Int) (u : State) :
      writeLoc (ofLoc la) (mask16 v) (ofState u) = ofState (Machine.writeLoc la (Machine.mask16 v) u) := by
    rw [← Machine.toNat_mask16, writeLoc_ofState]
  simp only [step, hw, hwa, hwb, hca, hcb, if_neg hne, if_neg (Nat.not_lt.mpr hle), resolve_ofState ha,
    resolve_ofState hb, readLoc_ofState, href]
  -- What is left follows the three answers of `Exec`, each stage absent or present.
  cases ovf <;> cases wb <;> cases skip <;>
    simp only [hflag, hwrite, advance_ofState, Machine.finalAdvance, Machine.writeback, Machine.updateFlag, if_true,
      if_false, Bool.false_eq_true]

/-- Settles O15: the decoded instruction either has no operands, or both operands resolve and `Exec` answers what the model's
cycle completes with. -/
theorem stepRefinesTheSpecPseudocode : Obligations.StepRefinesTheSpecPseudocode := by
  intro s
  obtain ⟨i, hdec, hwf, -⟩ := decode_fields (s.memRead s.pc)
  rw [Machine.step_of_decoded hdec]
  cases hop : i.operands with
  | none => exact ⟨_, Machine.exec_of_no_operands hop s, step_of_no_operands hdec hop⟩
  | some p =>
    obtain ⟨a, b⟩ := p
    obtain ⟨la, lb, s2, hr, -⟩ := Machine.exec_of_wf hop hwf s
    obtain ⟨wb, href, -⟩ := Machine.reference_exec_eq hop (Machine.readLoc la s2) (Machine.readLoc lb s2)
    exact ⟨_, Machine.exec_of_reference hop hr href, step_of_operands hdec hop hr href⟩

end Sys2Proof.Reference
end

section
/-! PROOFS. The memory as a map: equal reads mean equal canonical lists (rule R20), and words stored one after the other (rules
R83, R263). -/

namespace Sys2Proof.Machine

/-! ### The canonical form is canonical -/

theorem Memory.read_cons_same (addr : Nat) (v : Word) (m : Memory) : Memory.read ((addr, v) :: m) addr = v :=
  if_pos rfl

theorem Memory.read_cons_other {addr n : Nat} (v : Word) (m : Memory) (h : addr ≠ n) :
    Memory.read ((addr, v) :: m) n = Memory.read m n :=
  if_neg h

/-- The first listed cell shows: no canonical list that starts above it reads the same there. -/
theorem Memory.read_ne_of_below {lo lo' addr : Nat} {v : Word} {m m' : Memory}
    (hm : Memory.wfFrom lo ((addr, v) :: m) = true) (hm' : Memory.wfFrom lo' m' = true) (h : addr < lo') :
    Memory.read ((addr, v) :: m) addr ≠ Memory.read m' addr := by
  obtain ⟨-, -, hv, -⟩ := Memory.wfFrom_cons.mp hm
  rw [Memory.read_cons_same, Memory.read_below hm' h]
  exact hv

/-- The bound of a canonical list can be raised to its first address. -/
theorem Memory.wfFrom_head {lo addr : Nat} {v : Word} {m : Memory} (hm : Memory.wfFrom lo ((addr, v) :: m) = true) :
    Memory.wfFrom addr ((addr, v) :: m) = true := by
  obtain ⟨-, hrest⟩ := Memory.wfFrom_cons.mp hm
  exact Memory.wfFrom_cons.mpr ⟨le_rfl, hrest⟩

/-- Two canonical memories that read the same at every address are the same list. -/
theorem Memory.eq_of_read {lo : Nat} {m m' : Memory} (hm : Memory.wfFrom lo m = true) (hm' : Memory.wfFrom lo m' = true)
    (h : ∀ n, n < Config.memoryWords → Memory.read m n = Memory.read m' n) : m = m' := by
  induction m generalizing lo m' with
  | nil =>
    cases m' with
    | nil => rfl
    | cons c m' =>
      obtain ⟨-, hlt, -, -⟩ := Memory.wfFrom_cons.mp hm'
      exact absurd (h c.1 hlt).symm (Memory.read_ne_of_below (lo' := c.1 + 1) hm' rfl (Nat.lt_succ_self _))
  | cons c m ih =>
    obtain ⟨addr, v⟩ := c
    obtain ⟨-, hlt, -, htail⟩ := Memory.wfFrom_cons.mp hm
    cases m' with
    | nil => exact absurd (h addr hlt) (Memory.read_ne_of_below (lo' := addr + 1) hm rfl (Nat.lt_succ_self _))
    | cons c' m' =>
      obtain ⟨addr', v'⟩ := c'
      obtain ⟨-, hlt', -, htail'⟩ := Memory.wfFrom_cons.mp hm'
      obtain hlow | rfl | hhigh := Nat.lt_trichotomy addr addr'
      · exact absurd (h addr hlt) (Memory.read_ne_of_below hm (Memory.wfFrom_head hm') hlow)
      · obtain rfl : v = v' := by simpa only [Memory.read_cons_same] using h addr hlt
        refine congrArg _ (ih htail htail' fun n hn => ?_)
        by_cases hne : addr = n
        · subst hne
          rw [Memory.read_below htail (Nat.lt_succ_self _), Memory.read_below htail' (Nat.lt_succ_self _)]
        · simpa only [Memory.read_cons_other _ _ hne] using h n hn
      · exact absurd (h addr' hlt').symm (Memory.read_ne_of_below hm' (Memory.wfFrom_head hm) hhigh)

/-- Settles O9: the memories by `Memory.eq_of_read`, the register files by their reads, the rest by hypothesis. -/
theorem equalReadsMeanEqualStates : Obligations.EqualReadsMeanEqualStates := by
  rintro ⟨m, g, pc, sp, o⟩ ⟨m', g', pc', sp', o'⟩ hs ht hmem hreg hpc hsp ho
  obtain rfl : m = m' := by
    refine Memory.eq_of_read hs ht fun n hn => ?_
    simpa [State.memRead, Nat.mod_eq_of_lt hn] using hmem (BitVec.ofNat 16 n)
  obtain rfl : g = g' := Regs.eq_of_read g g' hreg
  cases hpc; cases hsp; cases ho
  rfl

/-! ### Words stored from an address upward -/

/-- Different offsets below 65536 give different addresses. -/
theorem add_ofNat_inj {addr : Word} {j k : Nat} (hj : j < 65536) (hk : k < 65536)
    (h : addr + BitVec.ofNat 16 j = addr + BitVec.ofNat 16 k) : j = k := by
  have hoff : BitVec.ofNat 16 j = BitVec.ofNat 16 k := by simpa using h
  simpa [Nat.mod_eq_of_lt hj, Nat.mod_eq_of_lt hk] using congrArg BitVec.toNat hoff

theorem add_ofNat_zero (addr : Word) : addr + BitVec.ofNat 16 0 = addr := BitVec.add_zero addr

theorem add_ofNat_succ (addr : Word) (k : Nat) : addr + BitVec.ofNat 16 (k + 1) = addr + 1 + BitVec.ofNat 16 k := by
  rw [BitVec.ofNat_add, add_right_comm, add_assoc]
  rfl

/-- A cell at no offset of the region keeps its word. -/
theorem memRead_storeWords_other {s : State} {addr addr' : Word} {ws : List Word}
    (h : ∀ k < ws.length, addr' ≠ addr + BitVec.ofNat 16 k) : (s.storeWords addr ws).memRead addr' = s.memRead addr' := by
  induction ws generalizing s addr with
  | nil => rfl
  | cons w ws ih =>
    have hfirst : addr' ≠ addr := by simpa using h 0 (Nat.succ_pos _)
    have hrest : ∀ k < ws.length, addr' ≠ addr + 1 + BitVec.ofNat 16 k := fun k hk =>
      add_ofNat_succ addr k ▸ h (k + 1) (Nat.succ_lt_succ hk)
    rw [State.storeWords, ih hrest, memRead_memWrite_other _ _ _ _ hfirst]

/-- The word at offset `k` of a region no longer than the memory is the k-th word stored. -/
theorem memRead_storeWords {s : State} {addr w : Word} {ws : List Word} {k : Nat} (hlen : ws.length ≤ 65536)
    (h : ws[k]? = some w) : (s.storeWords addr ws).memRead (addr + BitVec.ofNat 16 k) = w := by
  induction ws generalizing s addr k with
  | nil => simp at h
  | cons v ws ih =>
    rw [List.length_cons] at hlen
    cases k with
    | zero =>
      have hrest : ∀ j < ws.length, addr ≠ addr + 1 + BitVec.ofNat 16 j := by
        intro j hj heq
        have hzero : addr + BitVec.ofNat 16 0 = addr + BitVec.ofNat 16 (j + 1) := by rwa [add_ofNat_succ, add_ofNat_zero]
        exact absurd (add_ofNat_inj (by decide) (Nat.lt_of_lt_of_le (Nat.succ_lt_succ hj) hlen) hzero) (Nat.succ_ne_zero j).symm
      obtain rfl : v = w := by simpa using h
      rw [State.storeWords, add_ofNat_zero, memRead_storeWords_other hrest, memRead_memWrite_same]
    | succ k =>
      rw [add_ofNat_succ]
      exact ih (by omega) (by simpa using h)

/-- Settles O46: the region is stored word by word, and without wrapping no address outside it is one of its offsets. -/
theorem loadWritesItsRegionOrIsRefused : Obligations.LoadWritesItsRegionOrIsRefused := by
  intro address words s
  constructor
  · intro hfit
    obtain ⟨hregs, hpc, hsp, ho⟩ := storeWords_rest s address words
    refine ⟨_, if_pos hfit, fun k w hk => ?_, fun addr hout => ?_, hregs, hpc, hsp, ho⟩
    · rw [BitVec.ofNat_add, BitVec.ofNat_toNat, BitVec.setWidth_eq]
      exact memRead_storeWords (by omega) hk
    · refine memRead_storeWords_other fun k hk heq => ?_
      have hnat : addr.toNat = address.toNat + k := by
        rw [heq, BitVec.toNat_add, BitVec.toNat_ofNat]
        omega
      omega
  · intro hlong
    exact if_neg (Nat.not_le.mpr hlong)

/-- A word stored at `pc` that decodes is what the next step runs. -/
theorem step_storeWords {s : State} {w : Word} {ws : List Word} {i : Instr} (hlen : ws.length < 65536)
    (hdec : decode w = .ok i) :
    step (s.storeWords s.pc (w :: ws)) = exec i (s.storeWords s.pc (w :: ws)) := by
  refine step_of_decoded ?_
  have hread := memRead_storeWords (s := s) (addr := s.pc) (w := w) (ws := w :: ws) (k := 0) hlen rfl
  rw [add_ofNat_zero] at hread
  rw [storeWords_pc, hread, hdec]

/-- Settles O11: the first of the three words is the table word, and it decodes. -/
theorem fetchWordRunsNext : Obligations.FetchWordRunsNext := by
  intro s w i h
  refine step_storeWords (by simp) ?_
  cases hdec : decode (tableWord 16 w 0) with
  | error e => simp [decodeTableWord, hdec, Except.toOption] at h
  | ok j => simpa [decodeTableWord, hdec, Except.toOption] using h

/-! ### An encoded instruction in place -/

theorem nextWords_le_one (c : Operand) : c.nextWords ≤ 1 := by cases c <;> simp [Operand.nextWords]

/-- The words of an instruction with operands: its own word, a's operand word if there is one, b's if there is one. -/
theorem encodeWords_of_operands {i : Instr} {a b : Operand} (hop : i.operands = some (a, b)) (wa wb : Word) :
    encodeWords i wa wb = encode i :: (List.replicate a.nextWords wa ++ List.replicate b.nextWords wb) := by
  rw [encodeWords, hop]

theorem encodeWords_eq_cons (i : Instr) (wa wb : Word) :
    ∃ ws, encodeWords i wa wb = encode i :: ws ∧ ws.length + 1 = i.length ∧ ws.length ≤ 2 := by
  cases hop : i.operands with
  | none => exact ⟨[], by simp [encodeWords, Instr.length, hop]⟩
  | some p =>
    obtain ⟨a, b⟩ := p
    have ha := nextWords_le_one a
    have hb := nextWords_le_one b
    refine ⟨_, encodeWords_of_operands hop wa wb, ?_, ?_⟩ <;>
      simp only [Instr.length, hop, List.length_append, List.length_replicate] <;> omega

/-- Settles O5: the first stored word is the encoded instruction, which decodes to it; the operand words are at the offsets 1
and 1 + nw(a) of the stored region. -/
theorem encodedWordsRunInPlace : Obligations.EncodedWordsRunInPlace := by
  intro i wa wb s hwf
  obtain ⟨ws, hws, hlen, hle⟩ := encodeWords_eq_cons i wa wb
  have hread {k : Nat} {w : Word} (hk : (encodeWords i wa wb)[k]? = some w) :
      (s.storeWords s.pc (encodeWords i wa wb)).memRead (s.pc + BitVec.ofNat 16 k) = w :=
    memRead_storeWords (by rw [hws, List.length_cons]; omega) hk
  refine ⟨by rw [hws, List.length_cons, hlen], ?_, fun a b hop => ⟨fun ha => hread ?_, fun hb => ?_⟩⟩
  · rw [hws]
    exact step_storeWords (by omega) (decode_encode hwf)
  · simp [encodeWords_of_operands hop, ha]
  · have haddr : s.pc + 1 + a.nw = s.pc + BitVec.ofNat 16 (a.nextWords + 1) := (add_ofNat_succ s.pc a.nextWords).symm
    rw [haddr]
    refine hread ?_
    simp [encodeWords_of_operands hop, hb]

end Sys2Proof.Machine
end

section
/-! PROOFS. MOD, the shifts and the conditionals (rules R175, R190, R191, R210 to R213). -/

namespace Sys2Proof.Machine

theorem modEffect_of_zero (x : Word) {y : Word} (h : y.toNat = 0) :
    modEffect x y = { wb := some ((0 : Word).toNat : Int), skip := false, ovf := none } := by
  simp [modEffect, remainder, h]

/-- By a nonzero divisor, MOD gives the remainder of division with remainder, which is a word (rule R175). -/
theorem modEffect_of_remainder {x y : Word} {q r : Nat} (hx : x.toNat = q * y.toNat + r) (hr : r < y.toNat) :
    modEffect x y = { wb := some ((BitVec.ofNat 16 r).toNat : Int), skip := false, ovf := none } := by
  have hy : 0 < y.toNat := by omega
  have hmod : x.toNat % y.toNat = r :=
    ((Nat.div_mod_unique hy).mpr ⟨by rw [hx, Nat.mul_comm, Nat.add_comm], hr⟩).2
  have hword : (BitVec.ofNat 16 r).toNat = r := Nat.mod_eq_of_lt (hr.trans y.isLt)
  rw [modEffect, remainder, if_neg hy.ne', hmod, hword]

/-- Settles O25: both clauses write the word of the remainder and no flag. -/
theorem modStoresRemainderAndKeepsO : Obligations.ModStoresRemainderAndKeepsO := by
  intro a b s ha hb
  obtain ⟨la, lb, s2, h⟩ := resolveBoth_ok_of_wf ha hb s
  refine ⟨la, lb, s2, h, ?_, ?_⟩
  · intro hy
    exact exec_of_wordEffect rfl h (modEffect_of_zero _ hy)
  · intro q r hx hr
    exact exec_of_wordEffect rfl h (modEffect_of_remainder hx hr)

/-- SHL's flag does not see that the model caps the amount at 16 (rule R190). -/
theorem shlOverflow_eq (x y : Word) : shlOverflow x y = decide (x.toNat * 2 ^ y.toNat > 65535) := by
  simp only [shlOverflow, shiftAmount, shl_capped_gt]

/-- Neither do SHR's word and flag (rule R191). -/
theorem shrEffect_eq (x y : Word) : shrEffect x y =
    { wb := some ((x.toNat / 2 ^ y.toNat : Nat) : Int), skip := false, ovf := some (decide (x.toNat % 2 ^ y.toNat ≠ 0)) } := by
  simp only [shrEffect, shrOverflow, shiftAmount, shr_capped_div _ _ x.isLt, shr_capped_mod _ _ x.isLt]

/-- Settles O26: the capped product has the residue and the flag of the full one. -/
theorem shlShiftsByTheWholeWord : Obligations.ShlShiftsByTheWholeWord := by
  intro a b s ha hb _
  obtain ⟨la, lb, s2, h⟩ := resolveBoth_ok_of_wf ha hb s
  have hword := (mask16_shl_capped (readLoc la s2) (readLoc lb s2)).trans (mask16_natCast_mod _)
  have hexec := exec_of_flagEffect (i := .shl a b) rfl h rfl hword
  rw [shlOverflow_eq] at hexec
  exact ⟨la, lb, s2, h, hexec⟩

/-- Settles O27: the capped quotient and remainder are the full ones. -/
theorem shrShiftsByTheWholeWord : Obligations.ShrShiftsByTheWholeWord := by
  intro a b s ha hb _
  obtain ⟨la, lb, s2, h⟩ := resolveBoth_ok_of_wf ha hb s
  exact ⟨la, lb, s2, h, exec_of_flagEffect rfl h (shrEffect_eq _ _) (mask16_ofNat _)⟩

/-! ### The conditionals -/

/-- One advance, or two for a skip (rules R148, R214). -/
theorem finalAdvance_eq (skip : Bool) (s : State) :
    finalAdvance skip s = { s with pc := s.pc + if skip then 2 else 1 } := by
  cases skip with
  | false => rfl
  | true =>
    have htwo : s.pc + 1 + 1 = s.pc + 2 := add_assoc _ _ _
    exact congrArg s.setPc htwo

/-- An opcode whose effect is only a skip under condition `p`: nothing is written, and `pc` advances once or twice (rule
R214). -/
theorem exec_of_skipEffect {i : Instr} {a b : Operand} {s s2 : State} {la lb : Loc} {p : Prop} [Decidable p]
    (hop : i.operands = some (a, b)) (h : resolveBoth a b s = .ok (la, lb, s2))
    (heff : effectOf i (readLoc la s2) (readLoc lb s2) = skipEffect (decide p)) :
    exec i s = .next (if p then { s2 with pc := s2.pc + 2 } else { s2 with pc := s2.pc + 1 }) := by
  have hcomplete : complete (skipEffect (decide p)) la s2 = finalAdvance (decide p) s2 := rfl
  rw [exec_of_resolveBoth hop h, heff, hcomplete, finalAdvance_eq]
  by_cases hp : p <;> simp [hp]

/-- Two words have no common 1 bit exactly when their conjunction is 0 (rule R213). -/
theorem and_eq_zero_iff (x y : Word) :
    x &&& y = 0 ↔ ¬ ∃ k : Nat, k < 16 ∧ x.getLsbD k = true ∧ y.getLsbD k = true := by
  constructor
  · rintro h ⟨k, -, hx, hy⟩
    have hk : (x &&& y).getLsbD k = true := by rw [BitVec.getLsbD_and, hx, hy]; rfl
    rw [h] at hk
    simp at hk
  · intro h
    refine BitVec.eq_of_getLsbD_eq fun k hk => ?_
    rw [BitVec.getLsbD_and]
    simpa using fun hx hy => h ⟨k, hk, hx, hy⟩

/-- Settles O29: each conditional is the shared skip under its own condition. -/
theorem conditionalsSkipOnTheirCondition : Obligations.ConditionalsSkipOnTheirCondition := by
  intro a b s ha hb
  obtain ⟨la, lb, s2, h⟩ := resolveBoth_ok_of_wf ha hb s
  refine ⟨la, lb, s2, h, pc_of_resolveBoth h, ?_, ?_, ?_, ?_⟩
  · rw [exec_of_skipEffect (i := .ife a b) rfl h rfl, ite_not]
  · exact exec_of_skipEffect rfl h rfl
  · rw [exec_of_skipEffect (i := .ifg a b) rfl h rfl, ← ite_not]
    simp only [Nat.not_le]
  · rw [exec_of_skipEffect (i := .ifb a b) rfl h rfl]
    simp only [and_eq_zero_iff, ite_not]

end Sys2Proof.Machine
end

section
/-! PROOFS. `O`, `PC` and literals as destinations, and the closed form of `pc` (rules R31, R119, R149, R150, R271). -/

namespace Sys2Proof.Machine

/-! ### Destination `O` -/

/-- With `O` as destination only b's resolution acts. -/
theorem resolveBoth_o {b : Operand} {s s2 : State} {lb : Loc} (h : resolve b s = .ok (lb, s2)) :
    resolveBoth .o b s = .ok (.o, lb, s2) :=
  resolveBoth_eq_ok.mpr ⟨s, rfl, h⟩

theorem toNat_readLoc_o (s : State) : (readLoc .o s).toNat = if s.overflow then 1 else 0 := by
  cases h : s.overflow <;> simp [boolWord, h]

/-- The masked word is nonzero exactly when the residue is. -/
theorem mask16_ne_zero_iff (v : Int) : mask16 v ≠ 0 ↔ v % 65536 ≠ 0 := by
  rw [ne_eq, ← BitVec.toNat_inj, toNat_mask16, Reference.mask16]
  simp
  omega

/-- Settles O31: the writeback to `O` comes last and covers the flag update. -/
theorem arithmeticIntoO : Obligations.ArithmeticIntoO := by
  intro i b s hop hw hb
  obtain ⟨lb, s2, hr⟩ := resolve_ok_of_wf hb s
  obtain ⟨-, -, ho, -⟩ := resolve_next hr
  obtain ⟨v, ovf, href, hexec⟩ := exec_of_writesBack hop hw (resolveBoth_o hr)
  rw [toNat_readLoc_o, ho] at href
  refine ⟨lb, s2, v, ovf, hr, href, hexec.trans ?_⟩
  simp only [writeLoc_oLoc, mask16_ne_zero_iff]
  cases ovf <;> rfl

/-- Settles O32: reading and writing `O` through SET, on the state after the resolutions, which leave `O` alone. -/
theorem oReadsZeroOrOneAndStoresNonzero : Obligations.OReadsZeroOrOneAndStoresNonzero := by
  refine ⟨fun a s ha => ?_, fun r s => exec_set_of_resolve (a := .reg r) (b := .o) rfl rfl, fun b s hb => ?_⟩
  · obtain ⟨la, s2, hr⟩ := resolve_ok_of_wf ha s
    obtain ⟨-, -, ho, -⟩ := resolve_next hr
    exact ⟨la, s2, resolveBoth_eq_ok.mpr ⟨s2, hr, rfl⟩, by rw [readLoc_o, ho, boolWord]⟩
  · obtain ⟨lb, s2, hr⟩ := resolve_ok_of_wf hb s
    exact ⟨lb, s2, hr, exec_set_of_resolveBoth (resolveBoth_o hr)⟩

/-! ### Destination `PC` -/

/-- `SUB PC, 1` undoes the final advance (rule R149). -/
theorem exec_sub_pc_one (s : State) :
    exec (.sub .pc (.shortLit 1)) s = .next { s with overflow := decide (s.pc = 0) } := by
  have hborrow : decide (s.pc.toNat < (1 : Word).toNat) = decide (s.pc = 0) := by
    simp [← BitVec.toNat_inj]
  have hword : mask16 (s.pc.toNat - (1 : Word).toNat : Int) = s.pc - 1 := by
    apply BitVec.eq_of_toNat_eq
    rw [toNat_mask16, Reference.mask16, ← Reference.toNat_sub_one]
    rfl
  rw [exec_of_flagEffect (i := .sub .pc (.shortLit 1)) rfl rfl (subEffect_eq s.pc 1) hword, hborrow]
  simp [State.advance, State.setPc]

/-- Settles O34: the masked value goes to `pc`, then the final advance adds 1. -/
theorem writingPcContinuesOnePast : Obligations.WritingPcContinuesOnePast := by
  refine ⟨fun i b s hop hw hb => ?_, exec_sub_pc_one⟩
  obtain ⟨lb, s2, hr⟩ := resolve_ok_of_wf hb s
  obtain ⟨v, ovf, href, hexec⟩ := exec_of_writesBack hop hw (resolveBoth_eq_ok.mpr ⟨s, rfl, hr⟩)
  refine ⟨lb, s2, _, v, ovf, hr, href, hexec, ?_⟩
  simp [BitVec.toNat_add, toNat_mask16]

/-! ### The closed form of `pc` -/

theorem writeback_pc {wb : Option Int} {l : Loc} (s : State) (h : wb = none ∨ l ≠ .pc) : (writeback wb l s).pc = s.pc := by
  cases wb with
  | none => rfl
  | some v => exact writeLoc_pc l (mask16 v) s (h.resolve_left (by simp))

/-- Settles O35: the resolutions add the operand words, the final advance 1 and the skip, and no writeback goes to `pc`. -/
theorem pcAdvancesByTheLengthAndTheSkip : Obligations.PcAdvancesByTheLengthAndTheSkip := by
  intro i a b s hop hwf hdest
  obtain ⟨la, lb, s2, hr, -⟩ := exec_of_wf hop hwf s
  obtain ⟨wb, href, hmask⟩ := reference_exec_eq hop (readLoc la s2) (readLoc lb s2)
  obtain ⟨-, -, -, -, -, hla⟩ := resolveBoth_next hr
  have hnot : wb = none ∨ la ≠ .pc := by
    cases hw : i.writesBack with
    | true => exact .inr fun e => hdest hw ((locOf_eq_iff a s).2.1.mp (hla ▸ e))
    | false =>
      have hnone : (effectOf i (readLoc la s2) (readLoc lb s2)).wb = none := by simpa using (effectOf_wb i _ _).trans hw
      exact .inl (by simpa [hnone] using hmask)
  refine ⟨la, lb, s2, _, wb, _, _, hr, href, fun hskip => ?_, exec_of_reference hop hr href, ?_⟩
  · by_contra hw
    rw [effectOf_skip i _ _ (by simpa using hw)] at hskip
    cases hskip
  · rw [finalAdvance_pc, writeback_pc _ hnot, updateFlag_pc, pc_of_resolveBoth hr]

/-! ### A literal as destination -/

theorem updateFlag_eq (ovf : Option Bool) (s : State) :
    updateFlag ovf s = { s with overflow := ovf.getD s.overflow } := by
  cases ovf <;> rfl

theorem locOf_literal {c : Operand} (h : c = .nextLit ∨ ∃ n, c = .shortLit n) (s : State) : ∃ v, locOf c s = .lit v := by
  obtain rfl | ⟨n, rfl⟩ := h <;> exact ⟨_, rfl⟩

/-- Settles O43: the writeback to a literal does nothing, so the flag update and the advance are all that is left. -/
theorem literalDestinationOnlySetsTheFlag : Obligations.LiteralDestinationOnlySetsTheFlag := by
  intro i a b s hop hwf hw hlit
  obtain ⟨la, lb, s2, hr, -⟩ := exec_of_wf hop hwf s
  obtain ⟨hmem, hregs, ho, -, -, hla⟩ := resolveBoth_next hr
  obtain ⟨v, ovf, href, hexec⟩ := exec_of_writesBack hop hw hr
  obtain ⟨w, hloc⟩ := locOf_literal hlit s
  refine ⟨la, lb, s2, v, ovf, hr, href, ?_, memRead_of_mem hmem, reg_of_regs hregs⟩
  rw [hexec, hla, hloc, writeLoc_litLoc, updateFlag_eq, ho, ← pc_of_resolveBoth hr]
  rfl

/-! ### A store to the next instruction -/

/-- Settles O45: the word stored at `t.pc` is the masked value, and `t` still holds it when it is fetched. -/
theorem storeIsSeenByTheNextFetch : Obligations.StoreIsSeenByTheNextFetch := by
  intro i j a b s s2 t lb v ovf hop hr href hdec hexec
  have ht : t = (writeLoc (.mem t.pc) (mask16 v) (updateFlag ovf s2)).advance :=
    Host.Outcome.next.inj (hexec.symm.trans (exec_of_reference hop hr href))
  have hread : t.memRead t.pc = mask16 v := by
    rw [congrArg (State.memRead · t.pc) ht]
    simp
  refine step_of_decoded ?_
  rw [hread, ← hdec, ← toNat_mask16, BitVec.ofNat_toNat, BitVec.setWidth_eq]

end Sys2Proof.Machine
end

section
/-! PROOFS. Stack forms in both operands, and the round trip of PUSH and POP (rules R129, R130). -/

namespace Sys2Proof.Machine

/-- Writing to a cell what it holds changes no read. -/
theorem memRead_memWrite_self (s : State) (addr addr' : Word) :
    (s.memWrite addr (s.memRead addr)).memRead addr' = s.memRead addr' := by
  rw [memRead_memWrite]
  split
  · next h => rw [h]
  · rfl

/-- PUSH and POP of one instruction meet in the cell below the top: it is copied to itself. -/
theorem exec_set_push_pop (s : State) : ∃ t, exec (.set .push .pop) s = .next t ∧ t.sp = s.sp ∧
    ∀ addr, t.memRead addr = s.memRead addr :=
  ⟨_, exec_set_of_resolve rfl rfl, BitVec.sub_add_cancel s.sp 1, memRead_memWrite_self s (s.sp - 1)⟩

/-- POP and PUSH meet in the top cell. -/
theorem exec_set_pop_push (s : State) : ∃ t, exec (.set .pop .push) s = .next t ∧ t.sp = s.sp ∧
    ∀ addr, t.memRead addr = s.memRead addr := by
  have hcancel : s.sp + 1 - 1 = s.sp := BitVec.add_sub_cancel s.sp 1
  refine ⟨_, exec_set_of_resolve rfl rfl, hcancel, fun addr => ?_⟩
  simpa [hcancel] using memRead_memWrite_self ((s.setSp (s.sp + 1)).setSp s.sp) s.sp addr

theorem exec_add_pop_pop (s : State) : ∃ t, exec (.add .pop .pop) s = .next t ∧ t.sp = s.sp + 2 ∧
    t.memRead s.sp = s.memRead s.sp + s.memRead (s.sp + 1) ∧
    ∀ addr, addr ≠ s.sp → t.memRead addr = s.memRead addr := by
  refine ⟨_, exec_of_flagEffect rfl rfl rfl (mask16_add_toNat (s.memRead s.sp) (s.memRead (s.sp + 1))),
    add_assoc s.sp 1 1, ?_, fun addr h => ?_⟩
  · exact memRead_memWrite_same _ _ _
  · exact memRead_memWrite_other _ _ _ _ h

theorem exec_set_push_push (s : State) : ∃ t, exec (.set .push .push) s = .next t ∧ t.sp = s.sp - 2 ∧
    t.memRead (s.sp - 1) = s.memRead (s.sp - 2) ∧
    ∀ addr, addr ≠ s.sp - 1 → t.memRead addr = s.memRead addr := by
  have htwo : s.sp - 1 - 1 = s.sp - 2 := sub_sub s.sp 1 1
  refine ⟨_, exec_set_of_resolve rfl rfl, htwo, ?_, fun addr h => ?_⟩
  · rw [← htwo]
    exact memRead_memWrite_same _ _ _
  · exact memRead_memWrite_other _ _ _ _ h

/-- Settles O37: the four pairs, each by the two cells that its resolutions give. -/
theorem stackFormsInBothOperands : Obligations.StackFormsInBothOperands :=
  fun s => ⟨exec_set_push_pop s, exec_set_pop_push s, exec_add_pop_pop s, exec_set_push_push s⟩

/-- A register or a literal resolves to the same location and the same value after `sp` has moved. -/
theorem resolve_setSp {b : Operand} {s s2 : State} {lb : Loc} (v : Word)
    (hb : b = .nextLit ∨ (∃ q, b = .reg q) ∨ ∃ n, b = .shortLit n) (h : resolve b s = .ok (lb, s2)) :
    resolve b (s.setSp v) = .ok (lb, s2.setSp v) ∧ readLoc lb (s2.setSp v) = readLoc lb s := by
  obtain rfl | ⟨q, rfl⟩ | ⟨n, rfl⟩ := hb
  · cases h
    exact ⟨rfl, rfl⟩
  · cases h
    exact ⟨rfl, rfl⟩
  · have hn : n < 32 := by simpa [Operand.wf] using wf_of_resolve_ok h
    obtain ⟨rfl, rfl⟩ : Loc.lit (BitVec.ofNat 16 n) = lb ∧ s = s2 := by simpa [resolve, hn] using h
    exact ⟨if_pos hn, rfl⟩

theorem exec_set_reg_pop (r : Reg) (t : State) :
    exec (.set (.reg r) .pop) t = .next ((t.setSp (t.sp + 1)).setReg r (t.memRead t.sp)).advance :=
  exec_set_of_resolve (a := .reg r) (b := .pop) rfl rfl

/-- Settles O38: PUSH stores the word below the old top, and POP reads that cell and moves `sp` back. -/
theorem pushThenPopReturnsTheWord : Obligations.PushThenPopReturnsTheWord := by
  intro b r s hwf hb
  obtain ⟨lb, s2, hr⟩ := resolve_ok_of_wf hwf s
  obtain ⟨hr', hread⟩ := resolve_setSp (s.sp - 1) hb hr
  have hpush := exec_set_of_resolve (a := .push) (s := s) rfl hr'
  rw [hread] at hpush
  exact ⟨lb, s2, _, _, hr, hpush, rfl, memRead_memWrite_same _ _ _, exec_set_reg_pop r _,
    (reg_setReg_same _ _ _).trans (memRead_memWrite_same _ _ _), BitVec.sub_add_cancel s.sp 1,
    memRead_memWrite_same _ _ _⟩

end Sys2Proof.Machine
end

section
/-! PROOFS. Frames: what an instruction leaves unchanged (rules R22, R30, R37, R60, R217). -/

namespace Sys2Proof.Machine

/-! ### The frame of a cycle -/

section
variable {e : Effect} {l : Loc} (s : State)

theorem complete_reg_of_not_written {r : Reg} (h : e.wb = none ∨ l ≠ .reg r) : (complete e l s).reg r = s.reg r := by
  have hwrite : (writeback e.wb l (updateFlag e.ovf s)).reg r = (updateFlag e.ovf s).reg r := by
    cases hwb : e.wb with
    | none => rfl
    | some v => exact writeLoc_reg_other l (mask16 v) _ (h.resolve_left (by simp [hwb]))
  rw [complete, reg_of_regs (finalAdvance_regs _ _), hwrite, reg_of_regs (updateFlag_regs _ _)]

theorem complete_memRead_of_not_written {addr : Word} (h : e.wb = none ∨ l ≠ .mem addr) :
    (complete e l s).memRead addr = s.memRead addr := by
  have hwrite : (writeback e.wb l (updateFlag e.ovf s)).memRead addr = (updateFlag e.ovf s).memRead addr := by
    cases hwb : e.wb with
    | none => rfl
    | some v => exact writeLoc_memRead_other l (mask16 v) _ (h.resolve_left (by simp [hwb]))
  rw [complete, memRead_of_mem (finalAdvance_mem _ _), hwrite, memRead_of_mem (updateFlag_mem _ _)]

theorem complete_overflow_of_not_written (hovf : e.ovf = none) (h : e.wb = none ∨ l ≠ .o) :
    (complete e l s).overflow = s.overflow := by
  cases hwb : e.wb with
  | none => simp [complete, writeback, updateFlag, hwb, hovf]
  | some v => simp [complete, writeback, updateFlag, hwb, hovf, writeLoc_overflow l _ _ (h.resolve_left (by simp [hwb]))]

end

/-! ### The frame of an instruction with operands -/

/-- All that an instruction with operands leaves as it was: what it does not write back to, `O` where it has no flag, and `sp` but
for the stack forms. -/
theorem exec_frame {i : Instr} {a b : Operand} {la lb : Loc} {s s2 t : State} (hop : i.operands = some (a, b))
    (hr : resolveBoth a b s = .ok (la, lb, s2)) (h : exec i s = .next t) :
    (∀ r, i.writesBack = false ∨ a ≠ .reg r → t.reg r = s.reg r) ∧
    (∀ addr, i.writesBack = false ∨ la ≠ .mem addr → t.memRead addr = s.memRead addr) ∧
    (i.writesO = false → i.writesBack = false ∨ a ≠ .o → t.overflow = s.overflow) ∧
    (i.writesBack = false ∨ a ≠ .sp → t.sp = s.sp + a.spStep + b.spStep) := by
  obtain rfl := Host.Outcome.next.inj (h.symm.trans (exec_of_resolveBoth hop hr))
  obtain ⟨hmem, hregs, ho, -, hsp, hla⟩ := resolveBoth_next hr
  obtain ⟨hlocsp, -, hloco, hlocreg⟩ := locOf_eq_iff a s
  rw [← hla] at hlocsp hloco hlocreg
  have hwb (hw : i.writesBack = false) : (effectOf i (readLoc la s2) (readLoc lb s2)).wb = none := by
    simpa using (effectOf_wb i _ _).trans hw
  refine ⟨fun r hd => ?_, fun addr hd => ?_, fun hf hd => ?_, fun hd => ?_⟩
  · rw [complete_reg_of_not_written s2 (hd.imp hwb fun hne e => hne ((hlocreg r).mp e)), reg_of_regs hregs]
  · rw [complete_memRead_of_not_written s2 (hd.imp_left hwb), memRead_of_mem hmem]
  · have hovf : (effectOf i (readLoc la s2) (readLoc lb s2)).ovf = none := by simpa using (effectOf_ovf i _ _).trans hf
    rw [complete_overflow_of_not_written s2 hovf (hd.imp hwb fun hne e => hne (hloco.mp e)), ho]
  · rw [complete_sp_of_not_written s2 (hd.imp hwb fun hne e => hne (hlocsp.mp e)), hsp]

/-- Settles O39: the shared frame, where the destination is the one thing written back to. -/
theorem frameOfFlagWritingOpcodes : Obligations.FrameOfFlagWritingOpcodes := by
  intro i a b s t s2 la lb hop _ hr h
  obtain ⟨hreg, hmem, -, hsp⟩ := exec_frame hop hr h
  exact ⟨fun r ha => hreg r (.inr ha), fun addr hl => hmem addr (.inr hl), fun ha => hsp (.inr ha)⟩

/-- Settles O40: the shared frame, with no flag to write. -/
theorem frameOfFlagKeepingWriters : Obligations.FrameOfFlagKeepingWriters := by
  intro i a b s t s2 la lb hop _ hf hr h
  obtain ⟨hreg, hmem, ho, hsp⟩ := exec_frame hop hr h
  exact ⟨fun r ha => hreg r (.inr ha), fun addr hl => hmem addr (.inr hl), fun ha => ho hf (.inr ha),
    fun ha => hsp (.inr ha)⟩

theorem writesO_of_not_writesBack {i : Instr} (h : i.writesBack = false) : i.writesO = false := by
  cases i <;> simp_all [Instr.writesBack, Instr.writesO]

/-- Settles O41: NOP only advances; a conditional has the shared frame with nothing written back and no flag. -/
theorem frameOfConditionalsAndNop : Obligations.FrameOfConditionalsAndNop := by
  intro i s t hw h
  obtain ⟨hop, rfl⟩ | ⟨a, b, la, lb, s2, hop, hr, -⟩ := exec_next_cases h
  · exact ⟨fun _ => rfl, fun _ => rfl, rfl, fun _ => rfl, fun a b hab => by simp [hop] at hab⟩
  · obtain ⟨hreg, hmem, ho, hsp⟩ := exec_frame hop hr h
    refine ⟨fun r => hreg r (.inl hw), fun addr => hmem addr (.inl hw), ho (writesO_of_not_writesBack hw) (.inl hw),
      fun hnone => by simp [hop] at hnone, fun a' b' hab => ?_⟩
    obtain ⟨rfl, rfl⟩ : a = a' ∧ b = b' := by simpa [hop] using hab
    exact hsp (.inl hw)

/-- Settles O42: a cell that changes is the one that operand a was resolved to. -/
theorem stepWritesAtMostOneCell : Obligations.StepWritesAtMostOneCell := by
  intro s t h p q hp hq
  obtain ⟨i, -, hstep⟩ := step_eq_exec_of_wf s
  rw [hstep] at h
  obtain ⟨-, rfl⟩ | ⟨a, b, la, lb, s2, hop, hr, -⟩ := exec_next_cases h
  · exact absurd rfl hp
  · obtain ⟨-, hmem, -⟩ := exec_frame hop hr h
    have hcell {addr : Word} (hne : t.memRead addr ≠ s.memRead addr) : la = .mem addr := by
      by_contra hl
      exact hne (hmem addr (.inr hl))
    exact Loc.mem.inj ((hcell hp).symm.trans (hcell hq))

end Sys2Proof.Machine
end

section
/-! PROOFS. A register that no operand names: every stage of the cycle commutes with a write to it (rules R22, R37). -/

namespace Sys2Proof.Machine

theorem namesReg_eq_false_iff (r : Reg) (c : Operand) :
    c.namesReg r = false ↔ c ≠ .reg r ∧ c ≠ .regInd r ∧ c ≠ .nextPlusReg r := by
  simp [Operand.namesReg, and_assoc]

section
variable {r : Reg} (v : Word)

/-- Resolving an operand that does not name the register. -/
theorem resolve_setReg {c : Operand} {s s1 : State} {l : Loc} (hc : c.namesReg r = false)
    (h : resolve c s = .ok (l, s1)) : resolve c (s.setReg r v) = .ok (l, s1.setReg r v) := by
  obtain ⟨-, hind, hplus⟩ := (namesReg_eq_false_iff r c).mp hc
  cases c with
  | regInd q =>
    cases h
    have hq : r ≠ q := fun e => hind (e ▸ rfl)
    rw [resolve, reg_setReg_other _ _ _ _ hq]
  | nextPlusReg q =>
    cases h
    have hq : r ≠ q := fun e => hplus (e ▸ rfl)
    have hread : (s.setReg r v).advance.reg q = s.advance.reg q := reg_setReg_other s v r q hq
    rw [resolve, nextWord]
    simp only [hread]
    rfl
  | shortLit n =>
    have hn : n < 32 := by simpa [Operand.wf] using wf_of_resolve_ok h
    obtain ⟨rfl, rfl⟩ : Loc.lit (BitVec.ofNat 16 n) = l ∧ s = s1 := by simpa [resolve, hn] using h
    exact if_pos hn
  | _ =>
    cases h
    rfl

/-- The location it resolves to is not that register. -/
theorem resolve_ne_reg {c : Operand} {s s1 : State} {l : Loc} (hc : c.namesReg r = false)
    (h : resolve c s = .ok (l, s1)) : l ≠ .reg r := by
  obtain ⟨hreg, -⟩ := (namesReg_eq_false_iff r c).mp hc
  obtain ⟨-, -, -, hloc⟩ := locOf_eq_iff c s
  rw [resolve_loc h]
  exact fun e => hreg ((hloc r).mp e)

variable {l : Loc} (h : l ≠ .reg r) (s : State)
include h

theorem readLoc_setReg : readLoc l (s.setReg r v) = readLoc l s :=
  readLoc_writeLoc_other (l := .reg r) v s h.symm

theorem writeLoc_setReg (w : Word) : writeLoc l w (s.setReg r v) = (writeLoc l w s).setReg r v := by
  cases l with
  | reg q => exact congrArg (fun g => { s with regs := g }) (Regs.write_comm s.regs r q v w fun e => h (e ▸ rfl))
  | _ => rfl

theorem complete_setReg (e : Effect) : complete e l (s.setReg r v) = (complete e l s).setReg r v := by
  have hflag : updateFlag e.ovf (s.setReg r v) = (updateFlag e.ovf s).setReg r v := by cases e.ovf <;> rfl
  have hwrite (u : State) : writeback e.wb l (u.setReg r v) = (writeback e.wb l u).setReg r v := by
    cases e.wb with
    | none => rfl
    | some w => exact writeLoc_setReg v h u (mask16 w)
  rw [complete, hflag, hwrite, complete]
  cases e.skip <;> rfl

end

/-- Settles O44: the stages of the cycle in turn, each commuting with the write to the register. -/
theorem unnamedRegistersDoNotMatter : Obligations.UnnamedRegistersDoNotMatter := by
  intro i r v s t hnames h
  obtain ⟨hop, rfl⟩ | ⟨a, b, la, lb, s2, hop, hr, rfl⟩ := exec_next_cases h
  · exact exec_of_no_operands hop (s.setReg r v)
  · obtain ⟨ha, hb⟩ := hnames a b hop
    obtain ⟨s1, hra, hrb⟩ := resolveBoth_eq_ok.mp hr
    have hla := resolve_ne_reg ha hra
    have hlb := resolve_ne_reg hb hrb
    have hr' : resolveBoth a b (s.setReg r v) = .ok (la, lb, s2.setReg r v) :=
      resolveBoth_eq_ok.mpr ⟨_, resolve_setReg v ha hra, resolve_setReg v hb hrb⟩
    rw [exec_of_resolveBoth hop hr', readLoc_setReg v hla, readLoc_setReg v hlb, complete_setReg v hla]

end Sys2Proof.Machine
end

section
/-! PROOFS. The run of an empty memory (rule R261). -/

namespace Sys2Proof.Machine

/-- With nothing loaded the word at any `pc` is 0, a NOP. -/
theorem step_reset_setPc (p : Word) : step (State.reset.setPc p) = .next (State.reset.setPc (p + 1)) :=
  nopOnlyAdvancesPc.2 (State.reset.setPc p) rfl

theorem run_reset_setPc (n : Nat) (p : Word) :
    Host.Core.run Sys2Proof.core n (State.reset.setPc p) = .next (State.reset.setPc (p + BitVec.ofNat 16 n)) := by
  induction n generalizing p with
  | zero => rw [add_ofNat_zero]; rfl
  | succ n ih => rw [run_succ_of_step n (step_reset_setPc p), ih, add_ofNat_succ]

/-- Settles O47: the run from `pc = 0`. -/
theorem emptyMemoryRunsNops : Obligations.EmptyMemoryRunsNops := by
  intro n
  have hrun := run_reset_setPc n 0
  rw [zero_add] at hrun
  exact hrun

end Sys2Proof.Machine
end
